-- ==== Sys2Proof/Word.lean ====
section
/-! DEFINITION. The value types of the spec's notation (00_scope.md R8): words, bytes and the 64-bit counter value,
all unsigned. Their modular arithmetic (R9) is `BitVec`'s own: `+` wraps, `~~~` complements, `>>>` fills with
zeros, `<<<` truncates. -/

namespace Sys2Proof

/-- A 32-bit unsigned value (R8). -/
abbrev Word := BitVec 32

/-- An 8-bit unsigned value (R8). -/
abbrev Byte := BitVec 8

/-- A 64-bit unsigned value (R8). -/
abbrev U64 := BitVec 64

end Sys2Proof
end

