-- ==== Sys2Proof/Config.lean ====
section
/-! DEFINITION. What is fixed for the machine: the implementation parameters of 00_scope.md R6, and the free values,
which the spec leaves open and which therefore have no body here. NCORES, the one OPEN parameter of R6, is an argument of
the definitions of Machine/System.lean. -/

namespace Sys2Proof.Config

/-- Block size in bytes (R6). -/
abbrev blockBytes : Nat := 64

/-- Rounds per block, for both algorithms (R6). -/
abbrev rounds : Nat := 64

/-- The longest payload of one command: N is a 16-bit field (R6, D13). -/
abbrev maxPayload : Nat := 65535

/-- FREE VALUE. What H[k] holds after the n-th reset event: "H[0..7] and BUF[0..63] become unspecified" (R340, I2).
Log entry 4. -/
opaque resetHash : (n k : Nat) → Word

/-- FREE VALUE. What BUF[k] holds after the n-th reset event (R340, I3). Log entry 4. -/
opaque resetBuf : (n k : Nat) → Byte

/-- FREE VALUE. The header CORE reads from the four bytes `bs`: "the extra bytes are read as the next header" (R353), in a
byte order the spec says a header does not have (R69). Log entry 8. -/
opaque headerOfBytes : (bs : List Byte) → BitVec 32

/-- FREE VALUE. The four bytes a header word counts as where CORE still waits for payload: "Any bytes that follow are then
taken as payload, not as a new header" (R353), in a byte order the spec does not give (R69). Log entry 8. -/
opaque bytesOfHeader : (w : BitVec 32) → Vector Byte 4

end Sys2Proof.Config
end

