-- ==== Sys2Proof/Syntax.lean ====
section
/-! DEFINITION. The commands of the opcode table (30_encoding.md R83), one constructor per row, and what the host puts on
the command port. A command is a pair (hdr, payload) with N = len(payload) (R80), so a constructor holds the header's P
field and the payload bytes; N is the payload's length. An illegal P or N is kept: the command is then executed and
answers with an error code (R85, R305). -/

namespace Sys2Proof

/-- One constructor per row of the opcode table; `p` is hdr[23:16], the payload's length is N. -/
inductive Instr where
  /-- OP 0x01, start a new computation (R100). -/
  | init (p : BitVec 8) (payload : List Byte)
  /-- OP 0x02, feed message bytes (R120). -/
  | absorb (p : BitVec 8) (payload : List Byte)
  /-- OP 0x03, end the computation (R265). -/
  | finalize (p : BitVec 8) (payload : List Byte)
  /-- OP 0x04, read the digest bytes (R270). -/
  | readDigest (p : BitVec 8) (payload : List Byte)
  /-- OP 0x05, read the digest as lowercase hex text (R274). -/
  | readHex (p : BitVec 8) (payload : List Byte)
  /-- OP 0x06, apply the compression core to one block (R240). -/
  | compress (p : BitVec 8) (payload : List Byte)
  /-- OP 0x07, write the Hash State (R246). -/
  | loadState (p : BitVec 8) (payload : List Byte)
  /-- OP 0x08, read the Hash State (R250). -/
  | readState (p : BitVec 8) (payload : List Byte)
  /-- OP 0x09, read the status word (R104). -/
  | readStatus (p : BitVec 8) (payload : List Byte)
  /-- OP 0x0A, read the Total Length Counter (R108). -/
  | readLen (p : BitVec 8) (payload : List Byte)
deriving DecidableEq, Repr

/-- The header's P field (R81). -/
def Instr.p : Instr → BitVec 8
  | .init p _ | .absorb p _ | .finalize p _ | .readDigest p _ | .readHex p _
  | .compress p _ | .loadState p _ | .readState p _ | .readStatus p _ | .readLen p _ => p

/-- The payload bytes; their number is N (R80). -/
def Instr.payload : Instr → List Byte
  | .init _ b | .absorb _ b | .finalize _ b | .readDigest _ b | .readHex _ b
  | .compress _ b | .loadState _ b | .readState _ b | .readStatus _ b | .readLen _ b => b

/-- What reaches CORE from the host, in order of arrival (R80, R311, R340): a header moved as one 32-bit word (R69), a
payload byte, or the reset event. -/
inductive PortItem where
  | header (w : BitVec 32)
  | byte (b : Byte)
  | reset
deriving DecidableEq, Repr

end Sys2Proof
end

