-- ==== Sys2Proof/WellFormed.lean ====
section
/-! DEFINITION. Which terms of `Instr` are commands: N is a 16-bit field (30_encoding.md R81), so a payload has at most
65535 bytes (R6, R356). Nothing else is checked here: an illegal P and an N the opcode does not allow are commands too,
which CORE answers with E_BADCMD or E_BADLEN (R85). -/

namespace Sys2Proof

/-- The payload's length fits the header's N field (R81). -/
def Instr.wellFormed (i : Instr) : Bool := decide (i.payload.length ≤ Config.maxPayload)

end Sys2Proof
end

