-- ==== Sys2Proof/Decode.lean ====
section
/-! DEFINITION. Reading one command from what the port holds, and the encoder (30_encoding.md R80 to R87). `decode` is
total: whatever the port holds, it answers with a command and the rest, or says by name what stands there instead. -/

namespace Sys2Proof

/-- `OP = hdr[31:24]` (R81). -/
def headerOp (hdr : BitVec 32) : BitVec 8 := hdr.extractLsb' 24 8

/-- `P = hdr[23:16]` (R81). -/
def headerP (hdr : BitVec 32) : BitVec 8 := hdr.extractLsb' 16 8

/-- `N = hdr[15:0]`, a plain unsigned length (R81). -/
def headerN (hdr : BitVec 32) : Nat := (hdr.extractLsb' 0 16).toNat

/-- A row of the opcode map (R83). -/
structure OpcodeRow where
  op : BitVec 8
  mnemonic : String
  build : BitVec 8 → List Byte → Instr

/-- The opcode map (R83). The opcodes it does not list, 0x00 and 0x0B to 0xFF, are reserved (R84). -/
def opcodeTable : List OpcodeRow :=
  [⟨0x01, "INIT", .init⟩,
   ⟨0x02, "ABSORB", .absorb⟩,
   ⟨0x03, "FINALIZE", .finalize⟩,
   ⟨0x04, "READ_DIGEST", .readDigest⟩,
   ⟨0x05, "READ_HEX", .readHex⟩,
   ⟨0x06, "COMPRESS", .compress⟩,
   ⟨0x07, "LOAD_STATE", .loadState⟩,
   ⟨0x08, "READ_STATE", .readState⟩,
   ⟨0x09, "READ_STATUS", .readStatus⟩,
   ⟨0x0A, "READ_LEN", .readLen⟩]

/-- The command a header and its payload stand for; none for a reserved opcode (R83, R84). -/
def decodeCommand (hdr : BitVec 32) (payload : List Byte) : Option Instr :=
  (opcodeTable.find? (fun r => r.op == headerOp hdr)).map (fun r => r.build (headerP hdr) payload)

/-- What taking payload bytes from the port comes to. -/
inductive Taken where
  /-- All of them are there. -/
  | got (bytes : List Byte) (rest : List PortItem)
  /-- The port ends before the last of them: "CORE waits for the rest" (R353). -/
  | short
  /-- A reset event stands before the last of them (I12). -/
  | resetInside
deriving DecidableEq, Repr

/-- Bytes that arrived before the ones taken so far. -/
def Taken.after (bs : List Byte) : Taken → Taken
  | .got bytes rest => .got (bs ++ bytes) rest
  | .short => .short
  | .resetInside => .resetInside

/-- Take `n` bytes from the front of the port. "Any bytes that follow are then taken as payload, not as a new header"
(R353): a header word counts as its four bytes here, in an order the spec leaves open (`Config.bytesOfHeader`, log entry
8), and those of them not taken stay in front as bytes. -/
def takeBytes : List PortItem → Nat → Taken
  | items, 0 => .got [] items
  | [], _ + 1 => .short
  | .byte b :: rest, n + 1 => (takeBytes rest n).after [b]
  | .header w :: rest, n + 1 =>
      let bs := (Config.bytesOfHeader w).toList
      if n + 1 < 4 then .got (bs.take (n + 1)) ((bs.drop (n + 1)).map .byte ++ rest)
      else (takeBytes rest (n + 1 - 4)).after bs
  | .reset :: _, _ + 1 => .resetInside

/-- What stands at the front of the port. -/
inductive Decoded where
  /-- A complete command of the opcode map, and what follows it. -/
  | command (i : Instr) (rest : List PortItem)
  /-- A complete command whose OP is reserved (R84); its payload is dropped, and `rest` follows it (R82, R87). -/
  | reservedOpcode (op : BitVec 8) (rest : List PortItem)
  /-- The reset event, between two commands (R340). -/
  | resetEvent (rest : List PortItem)
  /-- Nothing: the host has sent no command (R315). -/
  | idle
  /-- The beginning of a command whose last bytes have not arrived (R80, R353). -/
  | waiting
  /-- The reset event in the middle of a command, which is not modelled (I12, D33). -/
  | resetInsideCommand
deriving DecidableEq, Repr

/-- The command of header `hdr`, whose payload stands at the front of `items`. The receiver reads the payload's length
"from the N field alone, for every OP, including reserved OPs and commands that fail" (R82). -/
def decodeHeader (hdr : BitVec 32) (items : List PortItem) : Decoded :=
  match takeBytes items (headerN hdr) with
  | .got payload rest =>
    match decodeCommand hdr payload with
    | some i => .command i rest
    | none => .reservedOpcode (headerOp hdr) rest
  | .short => .waiting
  | .resetInside => .resetInsideCommand

/-- The decoder. Where bytes stand at the place of a header, four of them "are read as the next header" (R353), in an order
the spec leaves open (`Config.headerOfBytes`, log entry 8). -/
def decode : List PortItem → Decoded
  | [] => .idle
  | .reset :: rest => .resetEvent rest
  | .header w :: rest => decodeHeader w rest
  | .byte b :: rest =>
    match takeBytes (.byte b :: rest) 4 with
    | .got bs rest' => decodeHeader (Config.headerOfBytes bs) rest'
    | .short => .waiting
    | .resetInside => .resetInsideCommand

/-- The opcode of each command (R83). -/
def Instr.op : Instr → BitVec 8
  | .init _ _ => 0x01
  | .absorb _ _ => 0x02
  | .finalize _ _ => 0x03
  | .readDigest _ _ => 0x04
  | .readHex _ _ => 0x05
  | .compress _ _ => 0x06
  | .loadState _ _ => 0x07
  | .readState _ _ => 0x08
  | .readStatus _ _ => 0x09
  | .readLen _ _ => 0x0A

/-- The header word with the given fields (R81). -/
def makeHeader (op p : BitVec 8) (n : Nat) : BitVec 32 := op ++ p ++ BitVec.ofNat 16 n

/-- The header of a command (R81). -/
def Instr.header (i : Instr) : BitVec 32 := makeHeader i.op i.p i.payload.length

/-- The encoder: a header word, then the N payload bytes in order (R80, R82). -/
def encode (i : Instr) : List PortItem := .header i.header :: i.payload.map .byte

/-- The traffic of the opcode table's word `w` of `nbits` bits: the header is its bits 31..0, and payload byte j its bits
39+8j..32+8j, all of them zero from bit `nbits` on (R80, R81). -/
def tableWordTraffic (nbits w : Nat) : List PortItem :=
  let v := w % 2 ^ nbits
  let hdr := BitVec.ofNat 32 v
  .header hdr :: (List.range (headerN hdr)).map (fun j => .byte (BitVec.ofNat 8 (v >>> (32 + 8 * j))))

/-- The command the decoder reads from a word of the opcode table. -/
def decodeTableWord (nbits w : Nat) : Option Instr :=
  match decode (tableWordTraffic nbits w) with
  | .command i _ => some i
  | .reservedOpcode _ _ | .resetEvent _ | .idle | .waiting | .resetInsideCommand => none

end Sys2Proof
end

