-- ==== Sys2Proof/Machine/State.lean ====
section
/-! DEFINITION. The architectural state (10_state.md), the response (30_encoding.md R86), the reasons a step can end
otherwise, and the state after reset (R33). -/

namespace Sys2Proof.Machine

/-- ALG, the Algorithm Identity, 1 bit: 0 = MD5, 1 = SHA-256 (R21). -/
inductive Alg where
  | md5
  | sha256
deriving DecidableEq, Repr

/-- PHASE, 2 bits: 0 = UNINIT, 1 = ACTIVE, 2 = FINAL (R20). The value 3 "is never written" and has no constructor here
(I5, log entry 13). -/
inductive Phase where
  | uninit
  | active
  | final
deriving DecidableEq, Repr

/-- A response: the result code byte and the data bytes (R86). -/
structure Response where
  code : BitVec 8
  data : List Byte
deriving DecidableEq, Repr

/-- The state between two commands (10_state.md), with the port and the responses, which are the model's own. -/
structure State where
  /-- PHASE (R20). -/
  phase : Phase
  /-- ALG (R21). -/
  alg : Alg
  /-- H[0..7], the Hash State (R22). -/
  h : Vector Word 8
  /-- BUF[0..63], the Accumulator Buffer (R24). -/
  buf : Vector Byte 64
  /-- BUFLEN, how many leading bytes of BUF are valid (R24). -/
  bufLen : BitVec 6
  /-- LEN, the Total Length Counter, in bytes (R25). -/
  len : U64
  /-- ERR, the sticky error flag (R27). -/
  err : Bool
  /-- ECODE, the code of the most recent error (R27). -/
  ecode : BitVec 8
  /-- What the host has sent and CORE has not taken, first to arrive first (R80, R353). The model's own (log entry 1). -/
  port : List PortItem
  /-- The responses given so far, oldest first (R86, R317). The model's own (log entry 10). -/
  responses : List Response
  /-- How many reset events there have been; it indexes the free values of R340. The model's own (log entry 4). -/
  resets : Nat
deriving DecidableEq, Repr

/-- Why the machine stops with a fault. NOBODY raises one, which is safe: "Errors are precise and there is no trap" (R308),
every command "either succeeds or fails with exactly one code" (60_exceptions.md), so there is no constructor (log entry
14). -/
inductive Fault
deriving DecidableEq, Repr

/-- Why a step has no meaning. -/
inductive Refusal where
  /-- Raised by an arm of `exec` whose instruction has no meaning yet; safe. No arm does so in this model. -/
  | notModelled (mnemonic : String)
  /-- Raised by `step` where a reset event stands before the last byte of a command; safe. "reset asserted in the middle of
  a command" is to be refused (93_implementation_defined.md I12, R340; log entry 9). -/
  | resetInsideCommand
deriving DecidableEq, Repr

/-- The machine right after reset (R33). H and BUF are "unspecified" there; zero is this model's choice (log entries 2 and
3). -/
def State.reset : State where
  phase := .uninit
  alg := .md5
  h := Vector.replicate 8 0
  buf := Vector.replicate 64 0
  bufLen := 0
  len := 0
  err := false
  ecode := 0
  port := []
  responses := []
  resets := 0

end Sys2Proof.Machine
end

