-- ==== Sys2Proof/Machine/Operands.lean ====
section
/-! DEFINITION. Operand forms: rotations (00_scope.md R10), byte and word packing (R11), and the names that depend on the
algorithm (R13). -/

namespace Sys2Proof.Machine

/-- `rotl(x, n) = ((x << n) | (x >> (32 - n)))`, for 1 <= n <= 31 (R10). -/
def rotl (x : Word) (n : Nat) : Word := (x <<< n) ||| (x >>> (32 - n))

/-- `rotr(x, n) = ((x >> n) | (x << (32 - n)))`, for 1 <= n <= 31 (R10). -/
def rotr (x : Word) (n : Nat) : Word := (x >>> n) ||| (x <<< (32 - n))

/-- `s[i]`, the i-th byte of a byte sequence (R11). Every rule's i is below len(s); the 0 beyond it is never used (log entry
17). -/
def byteAt (s : List Byte) (i : Nat) : Byte := s.getD i 0

/-- The Word with the four bytes given, most significant first. -/
def wordOfBytes (b3 b2 b1 b0 : Byte) : Word := b3 ++ b2 ++ b1 ++ b0

/-- Little-endian word k of s (R11). -/
def le32 (s : List Byte) (k : Nat) : Word :=
  wordOfBytes (byteAt s (4 * k + 3)) (byteAt s (4 * k + 2)) (byteAt s (4 * k + 1)) (byteAt s (4 * k))

/-- Big-endian word k of s (R11). -/
def be32 (s : List Byte) (k : Nat) : Word :=
  wordOfBytes (byteAt s (4 * k)) (byteAt s (4 * k + 1)) (byteAt s (4 * k + 2)) (byteAt s (4 * k + 3))

/-- `v[8i+7 : 8i]`. -/
def byteOf {w : Nat} (v : BitVec w) (i : Nat) : Byte := v.extractLsb' (8 * i) 8

/-- `[w[7:0], w[15:8], w[23:16], w[31:24]]` (R11). -/
def le32bytes (w : Word) : List Byte := [byteOf w 0, byteOf w 1, byteOf w 2, byteOf w 3]

/-- `[w[31:24], w[23:16], w[15:8], w[7:0]]` (R11). -/
def be32bytes (w : Word) : List Byte := [byteOf w 3, byteOf w 2, byteOf w 1, byteOf w 0]

/-- The eight bytes of a U64, least significant first (R11). -/
def le64bytes (v : U64) : List Byte :=
  [byteOf v 0, byteOf v 1, byteOf v 2, byteOf v 3, byteOf v 4, byteOf v 5, byteOf v 6, byteOf v 7]

/-- The eight bytes of a U64, most significant first (R11). -/
def be64bytes (v : U64) : List Byte :=
  [byteOf v 7, byteOf v 6, byteOf v 5, byteOf v 4, byteOf v 3, byteOf v 2, byteOf v 1, byteOf v 0]

/-- `W(alg)`, the number of state words: 4 for MD5, 8 for SHA-256 (R13). -/
def stateWords : Alg → Nat
  | .md5 => 4
  | .sha256 => 8

/-- `DL(alg)`, the digest's length in bytes: 16 for MD5, 32 for SHA-256 (R13). -/
def digestBytes : Alg → Nat
  | .md5 => 16
  | .sha256 => 32

/-- `word32(alg, s, k)` (R13). -/
def word32 : Alg → List Byte → Nat → Word
  | .md5 => le32
  | .sha256 => be32

/-- `bytes32(alg, w)` (R13). -/
def bytes32 : Alg → Word → List Byte
  | .md5 => le32bytes
  | .sha256 => be32bytes

/-- `bytes64(alg, v)` (R13). -/
def bytes64 : Alg → U64 → List Byte
  | .md5 => le64bytes
  | .sha256 => be64bytes

/-- `s[i..i+n)`, the n bytes of s from index i on (R11). -/
def slice (s : List Byte) (i n : Nat) : List Byte := (s.drop i).take n

/-- The algorithm INIT's parameter selects: `ALG <- P[0]`, 0 = MD5, 1 = SHA-256 (R100). -/
def algOfBit : Bool → Alg
  | false => .md5
  | true => .sha256

end Sys2Proof.Machine
end

