-- ==== Sys2Proof/Machine/Md5.lean ====
section
/-! DEFINITION. The MD5 compression core (43_md5_core.md): its constant tables and `md5_compress`, a pure function of four
state words and a 64-byte block. -/

namespace Sys2Proof.Machine

/-- IV_MD5 (R160). -/
def md5Iv : List Word := [0x67452301, 0xefcdab89, 0x98badcfe, 0x10325476]

/-- The shift cycles of the four ranges of rounds (R165). -/
def md5ShiftCycles : List (List Nat) := [[7, 12, 17, 22], [5, 9, 14, 20], [4, 11, 16, 23], [6, 10, 15, 21]]

/-- S_MD5[i]: within rounds 16q to 16q+15, `cycle_q[i mod 4]` (R165, R166). -/
def md5Shift (i : Nat) : Nat := (md5ShiftCycles.getD (i / 16) []).getD (i % 4) 0

/-- The table K_MD5[0..63] (R167). -/
def md5KTable : List Word :=
  [0xd76aa478, 0xe8c7b756, 0x242070db, 0xc1bdceee,
    0xf57c0faf, 0x4787c62a, 0xa8304613, 0xfd469501]
  ++ [0x698098d8, 0x8b44f7af, 0xffff5bb1, 0x895cd7be,
    0x6b901122, 0xfd987193, 0xa679438e, 0x49b40821]
  ++ [0xf61e2562, 0xc040b340, 0x265e5a51, 0xe9b6c7aa,
    0xd62f105d, 0x02441453, 0xd8a1e681, 0xe7d3fbc8]
  ++ [0x21e1cde6, 0xc33707d6, 0xf4d50d87, 0x455a14ed,
    0xa9e3e905, 0xfcefa3f8, 0x676f02d9, 0x8d2a4c8a]
  ++ [0xfffa3942, 0x8771f681, 0x6d9d6122, 0xfde5380c,
    0xa4beea44, 0x4bdecfa9, 0xf6bb4b60, 0xbebfbc70]
  ++ [0x289b7ec6, 0xeaa127fa, 0xd4ef3085, 0x04881d05,
    0xd9d4d039, 0xe6db99e5, 0x1fa27cf8, 0xc4ac5665]
  ++ [0xf4292244, 0x432aff97, 0xab9423a7, 0xfc93a039,
    0x655b59c3, 0x8f0ccc92, 0xffeff47d, 0x85845dd1]
  ++ [0x6fa87e4f, 0xfe2ce6e0, 0xa3014314, 0x4e0811a1,
    0xf7537e82, 0xbd3af235, 0x2ad7d2bb, 0xeb86d391]

/-- K_MD5[i] (R167). -/
def md5K (i : Nat) : Word := md5KTable.getD i 0

/-- Rounds 0..15 (R163). -/
def md5F (b c d : Word) : Word := (b &&& c) ||| (~~~b &&& d)

/-- Rounds 16..31 (R163). -/
def md5G (b c d : Word) : Word := (d &&& b) ||| (~~~d &&& c)

/-- Rounds 32..47 (R163). -/
def md5H (b c d : Word) : Word := b ^^^ c ^^^ d

/-- Rounds 48..63 (R163). -/
def md5I (b c d : Word) : Word := c ^^^ (b ||| ~~~d)

/-- The mixing function of round i (R163). -/
def md5Mix (i : Nat) (b c d : Word) : Word :=
  if i < 16 then md5F b c d
  else if i < 32 then md5G b c d
  else if i < 48 then md5H b c d
  else md5I b c d

/-- The index g of the message word round i reads (R164). -/
def md5Index (i : Nat) : Nat :=
  if i < 16 then i
  else if i < 32 then (5 * i + 1) % 16
  else if i < 48 then (3 * i + 5) % 16
  else (7 * i) % 16

/-- The working variables a, b, c, d (R162); also the four state words in order. -/
structure Md5Vars where
  a : Word
  b : Word
  c : Word
  d : Word
deriving DecidableEq, Repr

/-- Round i (R168): the new b is "the old **b** plus the rotated f" (90_conflicts.md C1). `m k` is the message word M[k]. -/
def md5Round (m : Nat → Word) (v : Md5Vars) (i : Nat) : Md5Vars :=
  let f := md5Mix i v.b v.c v.d + v.a + md5K i + m (md5Index i)
  ⟨v.d, v.b + rotl f (md5Shift i), v.b, v.c⟩

/-- The first n rounds, in order. -/
def md5Rounds (m : Nat → Word) (v : Md5Vars) (n : Nat) : Md5Vars := (List.range n).foldl (md5Round m) v

/-- `md5_compress(state, block)`: 64 rounds, then the feed-forward addition (R175, R176). -/
def md5Compress (state : Md5Vars) (block : List Byte) : Md5Vars :=
  let v := md5Rounds (le32 block) state Config.rounds
  ⟨state.a + v.a, state.b + v.b, state.c + v.c, state.d + v.d⟩

end Sys2Proof.Machine
end

