-- ==== Sys2Proof/Machine/Flags.lean ====
section
/-! DEFINITION. The status word (10_state.md R29), the result codes and the check every command passes before it has any
effect (60_exceptions.md R300 to R307). -/

namespace Sys2Proof.Machine

/-- PHASE as its 2-bit register value (R20). -/
def Phase.bits : Phase → BitVec 2
  | .uninit => 0
  | .active => 1
  | .final => 2

/-- ALG as its 1-bit register value (R21). -/
def Alg.bit : Alg → BitVec 1
  | .md5 => 0
  | .sha256 => 1

/-- `STATUS = PHASE | ALG << 2 | ERR << 3 | BUFLEN << 4 | ECODE << 16` (R29). -/
def statusWord (s : State) : Word :=
  s.phase.bits.setWidth 32 ||| (s.alg.bit.setWidth 32 <<< 2) ||| ((BitVec.ofBool s.err).setWidth 32 <<< 3)
    ||| (s.bufLen.setWidth 32 <<< 4) ||| (s.ecode.setWidth 32 <<< 16)

/-- The error codes (R300). -/
inductive ErrorCode where
  | badCmd
  | noInit
  | final
  | notFinal
  | badLen
deriving DecidableEq, Repr

/-- The code byte of an error (R300). -/
def ErrorCode.code : ErrorCode → BitVec 8
  | .badCmd => 0x01
  | .noInit => 0x02
  | .final => 0x03
  | .notFinal => 0x04
  | .badLen => 0x05

/-- The code byte OK (R300). -/
def okCode : BitVec 8 := 0x00

/-- Whether N is the length the opcode requires (R307). ABSORB (0x02) accepts every N. -/
def lengthAllowed (op : BitVec 8) (n : Nat) (alg : Alg) : Bool :=
  if op = 0x02 then true
  else if op = 0x06 then n == 64
  else if op = 0x07 then n == 4 * stateWords alg
  else n == 0

/-- `check(OP, P, N)`: the first error that applies, none for OK (R305). -/
def check (op p : BitVec 8) (n : Nat) (s : State) : Option ErrorCode :=
  if op = 0x00 ∨ 0x0B ≤ op then some .badCmd
  else if op ≠ 0x01 ∧ p ≠ 0 then some .badCmd
  else if op = 0x01 ∧ 0x01 < p then some .badCmd
  else if s.phase = .uninit ∧ op ∈ [0x02, 0x03, 0x04, 0x05, 0x06, 0x07, 0x08] then some .noInit
  else if s.phase = .final ∧ op ∈ [0x02, 0x03, 0x06, 0x07] then some .final
  else if s.phase = .active ∧ op ∈ [0x04, 0x05] then some .notFinal
  else if lengthAllowed op n s.alg = false then some .badLen
  else none

end Sys2Proof.Machine
end

