-- ==== Sys2Proof/Machine/Ops.lean ====
section
/-! DEFINITION. The named operations on the state that commands share: BUF and H access, the response, the error procedure,
the reset event and the frame of every command. -/

namespace Sys2Proof.Machine

/-- What a step answers. -/
abbrev Result := Host.Outcome State Fault Refusal

/-- `BufRead(i)` for 0 <= i <= 63 (R63). "No other index exists"; the 0 beyond is never read (log entry 17). -/
def bufRead (buf : Vector Byte 64) (i : Nat) : Byte := buf[i]?.getD 0

/-- `BufWrite(i, v)` for 0 <= i <= 63 (R63). -/
def bufWrite (buf : Vector Byte 64) (i : Nat) (v : Byte) : Vector Byte 64 := buf.setIfInBounds i v

/-- `[BufRead(0), ..., BufRead(n - 1)]`, empty when n = 0 (R121, R266). -/
def bufBytes (buf : Vector Byte 64) (n : Nat) : List Byte := (List.range n).map (bufRead buf)

/-- `for k in [0, n): H[k] <- f(k)`; the other words stay (R23). -/
def writeHash (n : Nat) (f : Nat → Word) (h : Vector Word 8) : Vector Word 8 :=
  Vector.ofFn fun k => if k.val < n then f k.val else h[k]

/-- `respond(code, data)`: the one response of a command (R86). -/
def respond (code : BitVec 8) (data : List Byte) (s : State) : State :=
  { s with responses := s.responses ++ [⟨code, data⟩] }

/-- The error procedure, `raise c`: `ERR <- 1; ECODE <- c; respond(c, [])`. "No other state changes" (R305). There is no
handler and no return from it (R308). -/
def raiseError (c : ErrorCode) (s : State) : State :=
  respond c.code [] { s with err := true, ecode := c.code }

/-- The frame of every command: the check first, then either the error procedure or the command's effect (R87). -/
def runCommand (op p : BitVec 8) (payload : List Byte) (effect : State → State) (s : State) : Result :=
  match check op p payload.length s with
  | some c => .next (raiseError c s)
  | none => .next (effect s)

/-- A command with a reserved OP, which the decoder has rejected: the check answers E_BADCMD and its payload is discarded
(R84, R87, R301). -/
def rejectReserved (s : State) : Result := .next (raiseError .badCmd s)

/-- The reset event (R340): the reset values of R33, no response. "H[0..7] and BUF[0..63] become unspecified": free values
(log entry 4). They depend on the event's number and the cell only, so two instances (R313) agree in them after their n-th events;
DESIGN CHOICE, log entry 4. -/
def applyReset (s : State) : State :=
  { s with
    phase := .uninit
    alg := .md5
    h := Vector.ofFn fun k => Config.resetHash s.resets k.val
    buf := Vector.ofFn fun k => Config.resetBuf s.resets k.val
    bufLen := 0
    len := 0
    err := false
    ecode := 0
    resets := s.resets + 1 }

/-- The port after its front has been taken. -/
def withPort (rest : List PortItem) (s : State) : State := { s with port := rest }

end Sys2Proof.Machine
end

