-- ==== Sys2Proof/Machine/Sha256.lean ====
section
/-! DEFINITION. The SHA-256 compression core (44_sha256_core.md): its constant tables and `sha256_compress`, a pure function
of eight state words and a 64-byte block. -/

namespace Sys2Proof.Machine

/-- IV_SHA (R200). -/
def shaIv : List Word :=
  [0x6a09e667, 0xbb67ae85, 0x3c6ef372, 0xa54ff53a, 0x510e527f, 0x9b05688c, 0x1f83d9ab, 0x5be0cd19]

/-- The table K_SHA[0..63] (R210). -/
def shaKTable : List Word :=
  [0x428a2f98, 0x71374491, 0xb5c0fbcf, 0xe9b5dba5,
    0x3956c25b, 0x59f111f1, 0x923f82a4, 0xab1c5ed5]
  ++ [0xd807aa98, 0x12835b01, 0x243185be, 0x550c7dc3,
    0x72be5d74, 0x80deb1fe, 0x9bdc06a7, 0xc19bf174]
  ++ [0xe49b69c1, 0xefbe4786, 0x0fc19dc6, 0x240ca1cc,
    0x2de92c6f, 0x4a7484aa, 0x5cb0a9dc, 0x76f988da]
  ++ [0x983e5152, 0xa831c66d, 0xb00327c8, 0xbf597fc7,
    0xc6e00bf3, 0xd5a79147, 0x06ca6351, 0x14292967]
  ++ [0x27b70a85, 0x2e1b2138, 0x4d2c6dfc, 0x53380d13,
    0x650a7354, 0x766a0abb, 0x81c2c92e, 0x92722c85]
  ++ [0xa2bfe8a1, 0xa81a664b, 0xc24b8b70, 0xc76c51a3,
    0xd192e819, 0xd6990624, 0xf40e3585, 0x106aa070]
  ++ [0x19a4c116, 0x1e376c08, 0x2748774c, 0x34b0bcb5,
    0x391c0cb3, 0x4ed8aa4a, 0x5b9cca4f, 0x682e6ff3]
  ++ [0x748f82ee, 0x78a5636f, 0x84c87814, 0x8cc70208,
    0x90befffa, 0xa4506ceb, 0xbef9a3f7, 0xc67178f2]

/-- K_SHA[i] (R210). -/
def shaK (i : Nat) : Word := shaKTable.getD i 0

/-- `sigma0(x) = rotr(x, 7) ^ rotr(x, 18) ^ (x >> 3)` (R202). -/
def smallSigma0 (x : Word) : Word := rotr x 7 ^^^ rotr x 18 ^^^ (x >>> 3)

/-- `sigma1(x) = rotr(x, 17) ^ rotr(x, 19) ^ (x >> 10)` (R202). -/
def smallSigma1 (x : Word) : Word := rotr x 17 ^^^ rotr x 19 ^^^ (x >>> 10)

/-- `Sigma0(a) = rotr(a, 2) ^ rotr(a, 13) ^ rotr(a, 22)` (R205). -/
def bigSigma0 (a : Word) : Word := rotr a 2 ^^^ rotr a 13 ^^^ rotr a 22

/-- `Sigma1(e) = rotr(e, 6) ^ rotr(e, 11) ^ rotr(e, 25)` (R205). -/
def bigSigma1 (e : Word) : Word := rotr e 6 ^^^ rotr e 11 ^^^ rotr e 25

/-- `ch(e, f, g) = (e & f) ^ (~e & g)` (R205). -/
def shaCh (e f g : Word) : Word := (e &&& f) ^^^ (~~~e &&& g)

/-- `maj(a, b, c) = (a & b) ^ (a & c) ^ (b & c)` (R205). -/
def shaMaj (a b c : Word) : Word := (a &&& b) ^^^ (a &&& c) ^^^ (b &&& c)

/-- Append w[i], i = the number of words so far: `w[i-16] + sigma0(w[i-15]) + w[i-7] + sigma1(w[i-2])` (R204). -/
def shaExtend (ws : List Word) : List Word :=
  let i := ws.length
  ws ++ [ws.getD (i - 16) 0 + smallSigma0 (ws.getD (i - 15) 0) + ws.getD (i - 7) 0 + smallSigma1 (ws.getD (i - 2) 0)]

/-- The first 16 + n words of the message schedule: w[0..15] from the block (R201), the next n in increasing order (R204). -/
def shaScheduleUpTo (block : List Byte) : Nat → List Word
  | 0 => (List.range 16).map (be32 block)
  | n + 1 => shaExtend (shaScheduleUpTo block n)

/-- The message schedule w[0..63] (R204). -/
def shaSchedule (block : List Byte) : List Word := shaScheduleUpTo block 48

/-- The working variables a..h (R215); also the eight state words in order. -/
structure ShaVars where
  a : Word
  b : Word
  c : Word
  d : Word
  e : Word
  f : Word
  g : Word
  h : Word
deriving DecidableEq, Repr

/-- Round i (R206); `w k` is w[k]. -/
def shaRound (w : Nat → Word) (v : ShaVars) (i : Nat) : ShaVars :=
  let temp1 := v.h + bigSigma1 v.e + shaCh v.e v.f v.g + shaK i + w i
  let temp2 := bigSigma0 v.a + shaMaj v.a v.b v.c
  ⟨temp1 + temp2, v.a, v.b, v.c, v.d + temp1, v.e, v.f, v.g⟩

/-- The first n rounds, in order. -/
def shaRounds (w : Nat → Word) (v : ShaVars) (n : Nat) : ShaVars := (List.range n).foldl (shaRound w) v

/-- `sha256_compress(state, block)`: schedule, 64 rounds, feed-forward addition (R217, R218). -/
def sha256Compress (state : ShaVars) (block : List Byte) : ShaVars :=
  let ws := shaSchedule block
  let v := shaRounds (fun k => ws.getD k 0) state Config.rounds
  ⟨state.a + v.a, state.b + v.b, state.c + v.c, state.d + v.d, state.e + v.e, state.f + v.f, state.g + v.g, state.h + v.h⟩

end Sys2Proof.Machine
end

