-- ==== Sys2Proof/Machine/Compression.lean ====
section
/-! DEFINITION. The compression core on the H register file: `compress(alg, state, block)` (00_scope.md R13), and folding a
sequence of blocks into H in order. -/

namespace Sys2Proof.Machine

/-- IV_MD5[k] or IV_SHA[k] (R160, R200), k < W(alg). -/
def ivWord : Alg → Nat → Word
  | .md5, k => md5Iv.getD k 0
  | .sha256, k => shaIv.getD k 0

/-- H[0..3] as the four state words of MD5 (R22). -/
def md5State (h : Vector Word 8) : Md5Vars := ⟨h[0], h[1], h[2], h[3]⟩

/-- H[0..7] as the eight state words of SHA-256 (R22). -/
def shaState (h : Vector Word 8) : ShaVars := ⟨h[0], h[1], h[2], h[3], h[4], h[5], h[6], h[7]⟩

/-- The four words of an MD5 result in order. -/
def Md5Vars.toList (v : Md5Vars) : List Word := [v.a, v.b, v.c, v.d]

/-- The eight words of a SHA-256 result in order. -/
def ShaVars.toList (v : ShaVars) : List Word := [v.a, v.b, v.c, v.d, v.e, v.f, v.g, v.h]

/-- The words `compress(alg, (H[0], ..., H[W-1]), block)` returns (R13). -/
def compressWords (alg : Alg) (h : Vector Word 8) (block : List Byte) : List Word :=
  match alg with
  | .md5 => (md5Compress (md5State h) block).toList
  | .sha256 => (sha256Compress (shaState h) block).toList

/-- `(H[0], ..., H[W-1]) <- compress(alg, (H[0], ..., H[W-1]), block)` (R121, R240, R266). Under MD5, H[4..7] stay (R23). -/
def compressHash (alg : Alg) (h : Vector Word 8) (block : List Byte) : Vector Word 8 :=
  let ws := compressWords alg h block
  writeHash (stateWords alg) (fun k => ws.getD k 0) h

/-- H folded over the 64-byte blocks of `p`, in order: `for j in [0, len(p) / 64)` (R122, R266). -/
def foldBlocks (alg : Alg) (h : Vector Word 8) (p : List Byte) : Vector Word 8 :=
  (List.range (p.length / Config.blockBytes)).foldl
    (fun h j => compressHash alg h (slice p (Config.blockBytes * j) Config.blockBytes)) h

end Sys2Proof.Machine
end

