-- ==== Sys2Proof/Machine/Accumulator.lean ====
section
/-! DEFINITION. The block accumulator and ABSORB (41_accumulator.md). -/

namespace Sys2Proof.Machine

/-- What `accumulate` works on: BUF, H and the local count n, 0..63 between two bytes (R121). -/
structure Accum where
  buf : Vector Byte 64
  h : Vector Word 8
  n : Nat
deriving DecidableEq, Repr

/-- One turn of the loop of R121: the byte goes to BUF[n]; when it is the 64th, BUF is compressed at once and n is 0. -/
def accumByte (alg : Alg) (a : Accum) (b : Byte) : Accum :=
  let buf := bufWrite a.buf a.n b
  if a.n + 1 = Config.blockBytes then ⟨buf, compressHash alg a.h (bufBytes buf Config.blockBytes), 0⟩
  else ⟨buf, a.h, a.n + 1⟩

/-- The loop of `accumulate` over all the bytes, in order (R121). -/
def accumLoop (alg : Alg) (a : Accum) (bytes : List Byte) : Accum := bytes.foldl (accumByte alg) a

/-- `accumulate(bytes)` (R121); LEN advances by N modulo 2^64 (R123). -/
def accumulate (bytes : List Byte) (s : State) : State :=
  let a := accumLoop s.alg ⟨s.buf, s.h, s.bufLen.toNat⟩ bytes
  { s with buf := a.buf, h := a.h, bufLen := BitVec.ofNat 6 a.n, len := s.len + BitVec.ofNat 64 bytes.length }

/-- ABSORB (R120). -/
def execAbsorb (p : BitVec 8) (payload : List Byte) (s : State) : Result :=
  runCommand 0x02 p payload (fun s => respond okCode [] (accumulate payload s)) s

end Sys2Proof.Machine
end

