-- ==== Sys2Proof/Machine/Context.lean ====
section
/-! DEFINITION. The context commands INIT, READ_STATUS and READ_LEN (40_context.md). -/

namespace Sys2Proof.Machine

/-- INIT's effect (R100): `ALG <- P[0]`, H[0..W-1] from the algorithm's IV, BUFLEN and LEN 0, PHASE ACTIVE, ERR and ECODE
cleared. BUF is not written. -/
def initEffect (p : BitVec 8) (s : State) : State :=
  let alg := algOfBit (p.getLsbD 0)
  respond okCode []
    { s with
      alg := alg
      h := writeHash (stateWords alg) (ivWord alg) s.h
      bufLen := 0
      len := 0
      phase := .active
      err := false
      ecode := 0 }

/-- INIT (R100). -/
def execInit (p : BitVec 8) (payload : List Byte) (s : State) : Result :=
  runCommand 0x01 p payload (initEffect p) s

/-- READ_STATUS (R104): the response is `le32bytes(STATUS)`. -/
def execReadStatus (p : BitVec 8) (payload : List Byte) (s : State) : Result :=
  runCommand 0x09 p payload (fun s => respond okCode (le32bytes (statusWord s)) s) s

/-- READ_LEN (R108): the response is `le64bytes(LEN)`. -/
def execReadLen (p : BitVec 8) (payload : List Byte) (s : State) : Result :=
  runCommand 0x0A p payload (fun s => respond okCode (le64bytes s.len) s) s

end Sys2Proof.Machine
end

