-- ==== Sys2Proof/Machine/Padding.lean ====
section
/-! DEFINITION. The padding builder (42_padding.md): the pure function `pad(alg, r, L)`. -/

namespace Sys2Proof.Machine

/-- `z = (55 - len(r)) mod 64`, the count of 0x00 fill bytes (R140, R142). -/
def padZeros (n : Nat) : Nat := ((55 - (n : Int)) % 64).toNat

/-- `bitlen = (L * 8) mod 2^64` (R143, R147). -/
def bitLength (len : U64) : U64 := len * 8

/-- `pad(alg, r, L) = r || [0x80] || zeros(z) || bytes64(alg, bitlen)` (R140). -/
def pad (alg : Alg) (r : List Byte) (len : U64) : List Byte :=
  r ++ [0x80] ++ List.replicate (padZeros r.length) 0x00 ++ bytes64 alg (bitLength len)

end Sys2Proof.Machine
end

