-- ==== Sys2Proof/Machine/Finalizer.lean ====
section
/-! DEFINITION. The digest finalizer and FINALIZE, READ_DIGEST, READ_HEX (46_finalizer.md). -/

namespace Sys2Proof.Machine

/-- `serialize(alg, H) = bytes32(alg, H[0]) || ... || bytes32(alg, H[W(alg)-1])` (R260). -/
def serialize (alg : Alg) (h : Vector Word 8) : List Byte :=
  (h.toList.take (stateWords alg)).flatMap (bytes32 alg)

/-- The ASCII byte of a hex digit: 0x30 + v for 0..9, 0x61 + (v - 10) for 10..15 (R262). -/
def hexDigit (v : Nat) : Byte := if v < 10 then BitVec.ofNat 8 (0x30 + v) else BitVec.ofNat 8 (0x61 + (v - 10))

/-- `hex(d)`: two digits per byte, that of bits 7:4 first (R261). -/
def hex (d : List Byte) : List Byte := d.flatMap fun b => [hexDigit (b.toNat / 16), hexDigit (b.toNat % 16)]

/-- `finalize()` (R266): the residual is padded and its one or two blocks compressed in order; BUFLEN <- 0, PHASE <- FINAL.
LEN and ALG stay. -/
def finalizeEffect (s : State) : State :=
  let p := pad s.alg (bufBytes s.buf s.bufLen.toNat) s.len
  { s with h := foldBlocks s.alg s.h p, bufLen := 0, phase := .final }

/-- FINALIZE (R265). -/
def execFinalize (p : BitVec 8) (payload : List Byte) (s : State) : Result :=
  runCommand 0x03 p payload (fun s => respond okCode [] (finalizeEffect s)) s

/-- READ_DIGEST (R270). -/
def execReadDigest (p : BitVec 8) (payload : List Byte) (s : State) : Result :=
  runCommand 0x04 p payload (fun s => respond okCode (serialize s.alg s.h) s) s

/-- READ_HEX (R274). -/
def execReadHex (p : BitVec 8) (payload : List Byte) (s : State) : Result :=
  runCommand 0x05 p payload (fun s => respond okCode (hex (serialize s.alg s.h)) s) s

end Sys2Proof.Machine
end

