-- ==== Sys2Proof/Machine/CoreAccess.lean ====
section
/-! DEFINITION. Direct core access: COMPRESS, LOAD_STATE, READ_STATE (45_core_access.md). -/

namespace Sys2Proof.Machine

/-- COMPRESS (R240): H only; BUF, BUFLEN, LEN and PHASE stay (R241). -/
def execCompress (p : BitVec 8) (payload : List Byte) (s : State) : Result :=
  runCommand 0x06 p payload (fun s => respond okCode [] { s with h := compressHash s.alg s.h payload }) s

/-- LOAD_STATE (R246): `for k in [0, W(ALG)): H[k] <- word32(ALG, payload, k)` (R248). -/
def execLoadState (p : BitVec 8) (payload : List Byte) (s : State) : Result :=
  runCommand 0x07 p payload
    (fun s => respond okCode [] { s with h := writeHash (stateWords s.alg) (word32 s.alg payload) s.h }) s

/-- READ_STATE (R250): the response is `serialize(ALG, H)`. -/
def execReadState (p : BitVec 8) (payload : List Byte) (s : State) : Result :=
  runCommand 0x08 p payload (fun s => respond okCode (serialize s.alg s.h) s) s

end Sys2Proof.Machine
end

