-- ==== Sys2Proof/Machine/Dispatch.lean ====
section
/-! DEFINITION. The meaning of every command, one arm per row of the opcode table. -/

namespace Sys2Proof.Machine

def exec (i : Instr) (s : State) : Host.Outcome State Fault Refusal :=
  match i with
  | .init p payload => Sys2Proof.Machine.execInit p payload s
  | .absorb p payload => Sys2Proof.Machine.execAbsorb p payload s
  | .finalize p payload => Sys2Proof.Machine.execFinalize p payload s
  | .readDigest p payload => Sys2Proof.Machine.execReadDigest p payload s
  | .readHex p payload => Sys2Proof.Machine.execReadHex p payload s
  | .compress p payload => Sys2Proof.Machine.execCompress p payload s
  | .loadState p payload => Sys2Proof.Machine.execLoadState p payload s
  | .readState p payload => Sys2Proof.Machine.execReadState p payload s
  | .readStatus p payload => Sys2Proof.Machine.execReadStatus p payload s
  | .readLen p payload => Sys2Proof.Machine.execReadLen p payload s

end Sys2Proof.Machine
end

