-- ==== Sys2Proof/Machine/Step.lean ====
section
/-! DEFINITION. One step (30_encoding.md R87): take what stands at the front of the port and carry it out. -/

namespace Sys2Proof.Machine

/-- One step. A complete command is taken from the port and executed; one with a reserved OP runs the error procedure (R84,
R87); the reset event resets (R340). With nothing sent, CORE "is idle and holds its state" (R315), and while a command's
last bytes are missing it "waits for the rest" (R353): the state stays as it is (log entry 7). A reset event in the middle
of a command is refused (I12, log entry 9). -/
def step (s : State) : Host.Outcome State Fault Refusal :=
  match decode s.port with
  | .command i rest => exec i (withPort rest s)
  | .reservedOpcode _ rest => rejectReserved (withPort rest s)
  | .resetEvent rest => .next (applyReset (withPort rest s))
  | .idle => .next s
  | .waiting => .next s
  | .resetInsideCommand => .refused .resetInsideCommand

/-- The state with an opcode-table word, and the payload bytes its N field asks for, sent by the host as the next command:
in front of whatever else the port holds. A program comes to run by being sent to the port (log entry 1). -/
def State.withFetchWord (s : State) (nbits w : Nat) : State :=
  withPort (tableWordTraffic nbits w ++ s.port) s

end Sys2Proof.Machine
end

