-- ==== Sys2Proof/Machine/Pseudo.lean ====
section
/-! DEFINITION. Sequences of commands and the pseudo-instructions of 30_encoding.md R90, each of which expands to one. -/

namespace Sys2Proof.Machine

/-- Commands executed in order, each one complete before the next (R72), stopping at the first that has no next state. -/
def execAll : List Instr → State → Result
  | [], s => .next s
  | i :: is, s =>
    match exec i s with
    | .next t => execAll is t
    | .fault r => .fault r
    | .refused r => .refused r

/-- INIT's parameter for an algorithm: 0 = MD5, 1 = SHA-256 (R83). -/
def algParam : Alg → BitVec 8
  | .md5 => 0
  | .sha256 => 1

/-- The pseudo-instructions (R90). -/
inductive Pseudo where
  | absorbLong (bytes : List Byte)
  | hash (alg : Alg) (bytes : List Byte)
  | hashHex (alg : Alg) (bytes : List Byte)
  | rawCompress (state block : List Byte)
deriving DecidableEq, Repr

/-- How many ABSORBs `ABSORB_LONG` of L bytes takes: one for each 65535 bytes or part of them, and one when L = 0 (R90). -/
def absorbCount (len : Nat) : Nat := if len = 0 then 1 else (len + (Config.maxPayload - 1)) / Config.maxPayload

/-- The payloads of `ABSORB_LONG`: `bytes[0..65535)`, `bytes[65535..131070)`, ... (R90). -/
def absorbPieces (bytes : List Byte) : List (List Byte) :=
  (List.range (absorbCount bytes.length)).map fun j => slice bytes (Config.maxPayload * j) Config.maxPayload

/-- The commands of `ABSORB_LONG` (R90). -/
def absorbLongCommands (bytes : List Byte) : List Instr := (absorbPieces bytes).map (.absorb 0)

/-- The commands a pseudo-instruction expands to, in order (R90). -/
def Pseudo.expand : Pseudo → List Instr
  | .absorbLong bytes => absorbLongCommands bytes
  | .hash alg bytes => [.init (algParam alg) []] ++ absorbLongCommands bytes ++ [.finalize 0 [], .readDigest 0 []]
  | .hashHex alg bytes => [.init (algParam alg) []] ++ absorbLongCommands bytes ++ [.finalize 0 [], .readHex 0 []]
  | .rawCompress state block => [.loadState 0 state, .compress 0 block, .readState 0 []]

end Sys2Proof.Machine
end

