-- ==== Sys2Proof/Machine/Assembler.lean ====
section
/-! DEFINITION. The textual form of commands (30_encoding.md R89) and of the pseudo-instructions (R90): a line of text to
what it sends to the port. What R89 leaves open (where a comment may stand, a line with nothing on it) is in log entry 18. -/

namespace Sys2Proof.Machine

/-- What a line stands for. -/
inductive AsmLine where
  | comment
  | command (i : Instr)
  | raw (hdr : BitVec 32) (payload : List Byte)
  | pseudo (q : Pseudo)
deriving DecidableEq, Repr

/-- What a line sends to the port, in order. -/
def AsmLine.traffic : AsmLine → List PortItem
  | .comment => []
  | .command i => encode i
  | .raw hdr payload => .header hdr :: payload.map .byte
  | .pseudo q => q.expand.flatMap encode

/-- A space or a tab. -/
def isBlank (c : Char) : Bool := c.toNat == 0x20 || c.toNat == 0x09

/-- The text after its leading blanks. -/
def skipBlanks : List Char → List Char
  | [] => []
  | c :: cs => if isBlank c then skipBlanks cs else c :: cs

/-- Nothing but blanks and a comment is left. Blanks may stand before the `;`; DESIGN CHOICE, log entry 18. -/
def atLineEnd (cs : List Char) : Bool :=
  match skipBlanks cs with
  | [] => true
  | c :: _ => c == ';'

/-- Letters in lower case: "Mnemonics and operand words are case-insensitive" (R89). -/
def lowerCase (c : Char) : Char := if 0x41 ≤ c.toNat && c.toNat ≤ 0x5A then Char.ofNat (c.toNat + 0x20) else c

/-- The characters up to a blank, a comma, a semicolon or a quote, in lower case, and what follows. R89 does not say what ends a word;
DESIGN CHOICE, log entry 18. -/
def takeWord : List Char → List Char × List Char
  | [] => ([], [])
  | c :: cs =>
    if isBlank c || c == ',' || c == ';' || c.toNat == 0x22 then ([], c :: cs)
    else let (w, rest) := takeWord cs; (lowerCase c :: w, rest)

/-- The text after a word given in lower case, if the text begins with it. -/
def afterWord : List Char → List Char → Option (List Char)
  | [], cs => some cs
  | _ :: _, [] => none
  | k :: ks, c :: cs => if lowerCase c == k then afterWord ks cs else none

/-- The value of a hex digit, in either case. -/
def hexDigitValue (c : Char) : Option Nat :=
  let n := (lowerCase c).toNat
  if 0x30 ≤ n && n ≤ 0x39 then some (n - 0x30)
  else if 0x61 ≤ n && n ≤ 0x66 then some (n - 0x61 + 10)
  else none

/-- The value of a decimal digit. -/
def decimalDigitValue (c : Char) : Option Nat :=
  if 0x30 ≤ c.toNat && c.toNat ≤ 0x39 then some (c.toNat - 0x30) else none

/-- The hex digits at the front, "blanks inside are ignored" (R89), and what follows. -/
def hexRun : List Char → List Nat × List Char
  | [] => ([], [])
  | c :: cs =>
    if isBlank c then hexRun cs
    else match hexDigitValue c with
      | some v => let (vs, rest) := hexRun cs; (v :: vs, rest)
      | none => ([], c :: cs)

/-- Hex byte pairs, first byte first (R89); none where a digit is left over. No digit at all gives no byte; DESIGN CHOICE, log
entry 18. -/
def bytesOfDigits : List Nat → Option (List Byte)
  | [] => some []
  | [_] => none
  | a :: b :: rest => (bytesOfDigits rest).map (BitVec.ofNat 8 (16 * a + b) :: ·)

/-- The decimal number at the front, given what its earlier digits come to, and what follows. -/
def decimalRun (acc : Nat) : List Char → Nat × List Char
  | [] => (acc, [])
  | c :: cs =>
    match decimalDigitValue c with
    | some v => decimalRun (10 * acc + v) cs
    | none => (acc, c :: cs)

/-- The ASCII bytes of a text up to its closing quote, with the escapes of R89, and what follows. -/
def textRun : List Char → Option (List Byte × List Char)
  | [] => none
  | c :: cs =>
    if c.toNat == 0x22 then some ([], cs)
    else if c.toNat == 0x5C then
      match cs with
      | [] => none
      | e :: rest =>
        if e == 'n' then (textRun rest).map fun r => (0x0A :: r.1, r.2)
        else if e.toNat == 0x5C || e.toNat == 0x22 then (textRun rest).map fun r => (BitVec.ofNat 8 e.toNat :: r.1, r.2)
        else none
    else if c.toNat < 0x80 then (textRun cs).map fun r => (BitVec.ofNat 8 c.toNat :: r.1, r.2)
    else none

/-- `hex:<h...>` (R89). `hex:` with no digit after it is the empty byte sequence; DESIGN CHOICE, log entry 18. -/
def hexOperand (cs : List Char) : Option (List Byte × List Char) :=
  match afterWord "hex:".toList (skipBlanks cs) with
  | none => none
  | some rest => (bytesOfDigits (hexRun rest).1).map fun bs => (bs, (hexRun rest).2)

/-- `fill:<n>x<hh>`, n copies of byte 0xhh (R89); n is decimal and may be 0; DESIGN CHOICE, log entry 18. -/
def fillOperand (cs : List Char) : Option (List Byte × List Char) :=
  match afterWord "fill:".toList (skipBlanks cs) with
  | none => none
  | some rest =>
    match rest with
    | [] => none
    | d :: _ =>
      match decimalDigitValue d, (decimalRun 0 rest).2 with
      | some _, x :: a :: b :: rest' =>
        match lowerCase x == 'x', hexDigitValue a, hexDigitValue b with
        | true, some va, some vb =>
          some (List.replicate (decimalRun 0 rest).1 (BitVec.ofNat 8 (16 * va + vb)), rest')
        | _, _, _ => none
      | _, _ => none

/-- `"<text>"` (R89). `""` is the empty byte sequence; DESIGN CHOICE, log entry 18. -/
def textOperand (cs : List Char) : Option (List Byte × List Char) :=
  match skipBlanks cs with
  | [] => none
  | c :: rest => if c.toNat == 0x22 then textRun rest else none

/-- The byte operand of ABSORB and of the pseudo-instructions, in any of the three forms (R89). -/
def bytesOperand (cs : List Char) : Option (List Byte × List Char) :=
  (textOperand cs).orElse fun _ => (hexOperand cs).orElse fun _ => fillOperand cs

/-- `md5` or `sha256` (R89). -/
def algOperand (cs : List Char) : Option (Alg × List Char) :=
  let (w, rest) := takeWord (skipBlanks cs)
  if w == "md5".toList then some (.md5, rest)
  else if w == "sha256".toList then some (.sha256, rest)
  else none

/-- The text after a comma. Blanks may stand before it; DESIGN CHOICE, log entry 18. -/
def afterComma (cs : List Char) : Option (List Char) := afterWord [','] (skipBlanks cs)

/-- A result, where nothing but a comment follows it. -/
def ended {α : Type} : Option (α × List Char) → Option α
  | none => none
  | some (a, rest) => if atLineEnd rest then some a else none

/-- The commands with no operand (R89). -/
def bareCommands : List (List Char × Instr) :=
  [("finalize".toList, .finalize 0 []), ("read_digest".toList, .readDigest 0 []), ("read_hex".toList, .readHex 0 []),
   ("read_state".toList, .readState 0 []), ("read_status".toList, .readStatus 0 []), ("read_len".toList, .readLen 0 [])]

/-- `.word 0xXXXXXXXX`, then its payload if any (R89). The payload may follow the eighth digit with no blank between; DESIGN CHOICE,
log entry 18. -/
def rawOperand (cs : List Char) : Option (BitVec 32 × List Char) :=
  match afterWord "0x".toList (skipBlanks cs) with
  | none => none
  | some rest =>
    match (rest.take 8).mapM hexDigitValue with
    | none => none
    | some vs => if vs.length = 8 then some (BitVec.ofNat 32 (vs.foldl (fun n v => 16 * n + v) 0), rest.drop 8) else none

/-- `<alg>, <bytes>` (R90). -/
def algBytesOperands (cs : List Char) : Option (Alg × List Byte) := do
  let (alg, rest) ← algOperand cs
  let bytes ← ended (bytesOperand (← afterComma rest))
  return (alg, bytes)

/-- The line of a mnemonic (in lower case) and what follows it. -/
def assembleWord (w rest : List Char) : Option AsmLine :=
  if w == "init".toList then (ended (algOperand rest)).map fun a => .command (.init (algParam a) [])
  else if w == "absorb".toList then do
    let bs ← ended (bytesOperand rest)
    if bs.length ≤ Config.maxPayload then some (.command (.absorb 0 bs)) else none
  else if w == "compress".toList then do
    let bs ← ended (hexOperand rest)
    if bs.length = 64 then some (.command (.compress 0 bs)) else none
  else if w == "load_state".toList then do
    let bs ← ended (hexOperand rest)
    if bs.length = 16 ∨ bs.length = 32 then some (.command (.loadState 0 bs)) else none
  else if w == ".word".toList then
    match rawOperand rest with
    | none => none
    | some (hdr, rest') =>
      if atLineEnd rest' then some (.raw hdr []) else (ended (hexOperand rest')).map fun bs => .raw hdr bs
  else if w == "absorb_long".toList then (ended (bytesOperand rest)).map fun bs => .pseudo (.absorbLong bs)
  else if w == "hash".toList then (algBytesOperands rest).map fun ab => .pseudo (.hash ab.1 ab.2)
  else if w == "hash_hex".toList then (algBytesOperands rest).map fun ab => .pseudo (.hashHex ab.1 ab.2)
  else if w == "raw_compress".toList then do
    let (state, rest') ← hexOperand rest
    let block ← ended (hexOperand (← afterComma rest'))
    if (state.length = 16 ∨ state.length = 32) ∧ block.length = 64 then some (.pseudo (.rawCompress state block)) else none
  else match bareCommands.find? (fun e => e.1 == w) with
    | some e => if atLineEnd rest then some (.command e.2) else none
    | none => none

/-- One line of text: "the mnemonic, then its operands", or a comment (R89); none where it is no line of the
syntax. Blanks may stand before the mnemonic; DESIGN CHOICE, log entry 18. -/
def assembleLine (line : List Char) : Option AsmLine :=
  if atLineEnd line then some .comment
  else let (w, rest) := takeWord (skipBlanks line); assembleWord w rest

/-- The traffic of a sequence of lines, in order; none where one of them is no line of the syntax. -/
def assemble : List (List Char) → Option (List PortItem)
  | [] => some []
  | l :: ls =>
    match assembleLine l, assemble ls with
    | some a, some items => some (a.traffic ++ items)
    | _, _ => none

end Sys2Proof.Machine
end

