-- ==== Sys2Proof/Machine/System.lean ====
section
/-! DEFINITION. Several CORE instances (20_memory.md R75, 60_exceptions.md R313): NCORES machines side by side, each with its
own state and its own port, sharing only the read-only tables. NCORES is OPEN (00_scope.md R6), an argument here. -/

namespace Sys2Proof.Machine

/-- The states of NCORES instances. -/
abbrev System (ncores : Nat) := Vector State ncores

/-- "each one leaves reset in the state of 10_state.md rule R33" (R313). -/
def System.reset (ncores : Nat) : System ncores := Vector.replicate ncores State.reset

/-- One step of instance k. Which instance moves next is the caller's choice: "Commands to different instances are unordered
with respect to each other" (R75, log entry 12). -/
def System.stepAt {ncores : Nat} (sys : System ncores) (k : Fin ncores) : Host.Outcome (System ncores) Fault Refusal :=
  match step sys[k] with
  | .next t => .next (sys.set k t)
  | .fault r => .fault r
  | .refused r => .refused r

end Sys2Proof.Machine
end

