-- ==== Sys2Proof/Safety.lean ====
section
/-! DEFINITION. The terms the claims use: the invariant, when two states cannot be told apart from outside, what a response
may be, and the digest of a message by the block form of the rules. A run is safe when every step of it answers a next
state (`SafeFrom`). -/

namespace Sys2Proof.Machine

/-- A response the rules allow: a code of R300, and no data beside an error code (R86). -/
abbrev Response.Allowed (r : Response) : Prop := r.code ≤ 0x05 ∧ (r.code ≠ 0x00 → r.data = [])

/-- The invariant of the machine: BUFLEN follows LEN in ACTIVE and is 0 otherwise (R26, R266, R33); before the first INIT ALG and
LEN hold their reset values (R33); ECODE is a code of R300, and 0 exactly when ERR is 0 (R27, R29); every response so far is
one the rules allow (R86). -/
abbrev State.Inv (s : State) : Prop :=
  (s.phase = .active → s.bufLen.toNat = s.len.toNat % 64) ∧
  (s.phase ≠ .active → s.bufLen = 0) ∧
  (s.phase = .uninit → s.alg = .md5 ∧ s.len = 0) ∧
  s.ecode ≤ 0x05 ∧
  (s.err = false ↔ s.ecode = 0x00) ∧
  ∀ r ∈ s.responses, r.Allowed

/-- `k` steps from `s` all answer a next state. -/
def SafeFrom (s : State) (k : Nat) : Prop := ∃ t, Host.Core.run core k s = .next t

/-- Two states that agree on everything but the cells the spec calls unspecified: H before the first INIT (R33), H[4..7] under
MD5 (R23), and BUF from BUFLEN on (R24). -/
def SameToHost (s t : State) : Prop :=
  s.phase = t.phase ∧ s.alg = t.alg ∧ s.bufLen = t.bufLen ∧ s.len = t.len ∧ s.err = t.err ∧ s.ecode = t.ecode ∧
  s.port = t.port ∧ s.responses = t.responses ∧
  (s.phase ≠ .uninit → ∀ k : Fin 8, k.val < stateWords s.alg → s.h[k] = t.h[k]) ∧
  (s.phase ≠ .uninit → ∀ i < s.bufLen.toNat, bufRead s.buf i = bufRead t.buf i)

/-- H right after INIT, with zero in the words INIT does not write. -/
def ivHash (alg : Alg) : Vector Word 8 := writeHash (stateWords alg) (ivWord alg) (Vector.replicate 8 0)

/-- The digest of a whole message at once: pad it (R140), fold the blocks into the IV (R122), serialize (R260). -/
def digestOf (alg : Alg) (msg : List Byte) : List Byte :=
  serialize alg (foldBlocks alg (ivHash alg) (pad alg msg (BitVec.ofNat 64 msg.length)))

/-- The port traffic of a pair (hdr, payload) (R80). -/
def commandTraffic (hdr : BitVec 32) (payload : List Byte) : List PortItem := .header hdr :: payload.map .byte

/-- The state after a command that fails with code `c`: ERR, ECODE and the response, and nothing else (R305). -/
abbrev failedWith (c : BitVec 8) (s : State) : State :=
  { s with err := true, ecode := c, responses := s.responses ++ [⟨c, []⟩] }

/-- The state after a command that only answers: the response, and nothing else. -/
abbrev answeredWith (data : List Byte) (s : State) : State :=
  { s with responses := s.responses ++ [⟨0x00, data⟩] }

/-- The response data's length on success (R83). -/
def responseLength (alg : Alg) : Instr → Nat
  | .init _ _ | .absorb _ _ | .finalize _ _ | .compress _ _ | .loadState _ _ => 0
  | .readDigest _ _ => digestBytes alg
  | .readHex _ _ => 2 * digestBytes alg
  | .readState _ _ => 4 * stateWords alg
  | .readStatus _ _ => 4
  | .readLen _ _ => 8

end Sys2Proof.Machine
end

