-- ==== Sys2Proof/Certificates/Slice0/Obligations.lean ====
section
/-! DEFINITION. The statements for the provers. Each docstring names the rules of spec/ it formalises; where a clause rests on a
choice of this model, it names the log entry. -/

open Sys2Proof Sys2Proof.Machine

/-! ### Encoding and decoding -/

/-- R80 to R83: the traffic of every well-formed command, whatever its P and payload and whatever follows it, decodes to that
command and leaves what follows. -/
def Obligations.DecodeEncodeRoundTrip : Prop :=
  ∀ (i : Instr) (rest : List PortItem), i.wellFormed = true → decode (encode i ++ rest) = .command i rest

/-- R80 to R83, the other direction: whatever complete pair (hdr, payload) decodes to a command is that command's only encoding. -/
def Obligations.EncodeOfDecodedPair : Prop :=
  ∀ (hdr : BitVec 32) (payload : List Byte) (rest rest' : List PortItem) (i : Instr), payload.length = headerN hdr →
    decode (commandTraffic hdr payload ++ rest) = .command i rest' →
      encode i = commandTraffic hdr payload ∧ i.wellFormed = true ∧ rest' = rest

/-- R81: the three header fields are bits 31:24, 23:16 and 15:0, plain unsigned values. -/
def Obligations.HeaderFieldsAreBitRanges : Prop :=
  ∀ hdr : BitVec 32, (headerOp hdr).toNat = hdr.toNat / 2 ^ 24 ∧ (headerP hdr).toNat = hdr.toNat / 2 ^ 16 % 2 ^ 8 ∧
    headerN hdr = hdr.toNat % 2 ^ 16

/-- R83, R89: header words as the spec writes them out, and what they stand for. -/
def Obligations.WrittenWordsDecode : Prop :=
  decode [.header 0x01010000] = .command (.init 1 []) [] ∧
  decode [.header 0x02000003, .byte 0x61, .byte 0x62, .byte 0x63] = .command (.absorb 0 [0x61, 0x62, 0x63]) [] ∧
  decode [.header 0x03000000] = .command (.finalize 0 []) [] ∧
  decode [.header 0x04000000] = .command (.readDigest 0 []) [] ∧
  decode [.header 0x05000000] = .command (.readHex 0 []) [] ∧
  decode [.header 0x07000002, .byte 0x11, .byte 0x22, .header 0x08000000] = .command (.loadState 0 [0x11, 0x22]) [.header 0x08000000] ∧
  decode [.header 0x09000000] = .command (.readStatus 0 []) [] ∧
  decode [.header 0x0A000000] = .command (.readLen 0 []) [] ∧
  decode [.header 0x00000000] = .reservedOpcode 0x00 [] ∧
  decode [.header 0x0B000000] = .reservedOpcode 0x0B [] ∧
  decode [.header 0xFF000000] = .reservedOpcode 0xFF []

/-! ### The step -/

/-- R87: a step whose port begins with a decodable command runs exactly that command, on the state with the command taken from
the port. -/
def Obligations.StepRunsDecodedCommand : Prop :=
  (∀ (s : State) (i : Instr) (rest : List PortItem), decode s.port = .command i rest →
    step s = exec i { s with port := rest }) ∧
  (∀ (s : State) (i : Instr) (rest : List PortItem), i.wellFormed = true →
    step { s with port := encode i ++ rest } = exec i { s with port := rest })

/-- R87: on every pair (hdr, payload) with len(payload) = N the step checks OP, P and N; a code makes it fail with that code and
drops the payload, else it executes the command of OP with P and payload. -/
def Obligations.StepChecksThenExecutes : Prop :=
  ∀ (hdr : BitVec 32) (payload : List Byte) (rest : List PortItem) (s : State), payload.length = headerN hdr →
    match check (headerOp hdr) (headerP hdr) (headerN hdr) s with
    | some c => step { s with port := commandTraffic hdr payload ++ rest } = .next (failedWith c.code { s with port := rest })
    | none => ∃ i, i.op = headerOp hdr ∧ i.p = headerP hdr ∧ i.payload = payload ∧
        step { s with port := commandTraffic hdr payload ++ rest } = exec i { s with port := rest }

/-- R315: with nothing on the port, CORE holds its state however long it idles (an idle step answers the same state: log entry 7). -/
def Obligations.IdleMachineHoldsItsState : Prop :=
  ∀ (s : State) (k : Nat), s.port = [] → Host.Core.run core k s = .next s

/-- R80, R353: a command some of whose payload bytes have not arrived has no effect; when the missing bytes arrive, they are its
payload and it runs (a waiting step answers the same state: log entry 7). -/
def Obligations.TruncatedCommandWaits : Prop :=
  ∀ (i : Instr) (k : Nat) (s : State), i.wellFormed = true → k < i.payload.length → s.port = (encode i).take (k + 1) →
    step s = .next s ∧ step { s with port := s.port ++ (encode i).drop (k + 1) } = exec i { s with port := [] }

/-- R353: extra payload bytes are read as the next header. Which header four bytes make is the free value
`Config.headerOfBytes` (log entry 8); the statement holds whatever it is. -/
def Obligations.ExtraBytesAreReadAsHeader : Prop :=
  ∀ (b0 b1 b2 b3 : Byte) (payload : List Byte) (rest : List PortItem) (s : State),
    payload.length = headerN (Config.headerOfBytes [b0, b1, b2, b3]) →
      step { s with port := [b0, b1, b2, b3].map .byte ++ payload.map .byte ++ rest } =
        step { s with port := commandTraffic (Config.headerOfBytes [b0, b1, b2, b3]) payload ++ rest }

/-- R308, I12: no step faults, and a step is refused only where a reset event stands inside a command (log entry 9). -/
def Obligations.StepStopsOnlyForResetInsideCommand : Prop :=
  ∀ s : State, (decode s.port = .resetInsideCommand ∧ step s = .refused .resetInsideCommand) ∨ ∃ t, step s = .next t

/-- R72, R86: commands run strictly in arrival order. A port holding the encodings of n commands is emptied by n steps, which are
the n commands executed one after the other, each with exactly one response; the steps after those change nothing
(log entry 7). That several commands may stand on the port at once is the model's choice (log entry 1). -/
def Obligations.PortCommandsRunInOrder : Prop :=
  ∀ (is : List Instr) (s : State) (k : Nat), (∀ i ∈ is, i.wellFormed = true) → s.port = is.flatMap encode →
    ∃ t, execAll is { s with port := [] } = .next t ∧ Host.Core.run core (is.length + k) s = .next t ∧ t.port = [] ∧
      t.responses.length = s.responses.length + is.length

/-! ### Reset and the invariant -/

/-- R33: the state after reset. H and BUF, which R33 leaves unspecified, are not spoken of. -/
def Obligations.ResetStateHoldsSpecValues : Prop :=
  State.reset.phase = .uninit ∧ State.reset.alg = .md5 ∧ State.reset.bufLen = 0 ∧ State.reset.len = 0 ∧
  State.reset.err = false ∧ State.reset.ecode = 0x00 ∧ statusWord State.reset = 0x00000000

/-- R340: the reset event, from any state, sets the reset values and produces no response: the responses given before stay
as they are (log entry 10). H and BUF become free values, of which nothing is said (log entry 4). -/
def Obligations.ResetEventRestoresSpecValues : Prop :=
  ∀ (s : State) (rest : List PortItem), s.port = .reset :: rest →
    ∃ t, step s = .next t ∧ t.phase = .uninit ∧ t.alg = .md5 ∧ t.bufLen = 0 ∧ t.len = 0 ∧ t.err = false ∧ t.ecode = 0x00 ∧
      t.responses = s.responses ∧ t.port = rest ∧ statusWord t = 0x00000000

/-- The reset state meets the invariant `State.Inv`. -/
def Obligations.InvHoldsAtReset : Prop := State.reset.Inv

/-- R26, R27, R86, R300, R309: every step keeps `State.Inv`: BUFLEN = LEN mod 64 in ACTIVE and 0 otherwise, ECODE a code of R300
and 0 exactly when ERR is 0, every response one the rules allow. -/
def Obligations.InvKeptByEveryStep : Prop :=
  ∀ s t : State, s.Inv → step s = .next t → t.Inv

/-! ### The status register -/

/-- R29: the fields of STATUS, bit range by bit range; the reserved bits read 0; READ_STATUS returns it and no register changes. -/
def Obligations.StatusWordFields : Prop :=
  ∀ s : State,
    (statusWord s).extractLsb' 0 2 = (match s.phase with | .uninit => 0 | .active => 1 | .final => 2) ∧
    (statusWord s).extractLsb' 2 1 = (match s.alg with | .md5 => 0 | .sha256 => 1) ∧
    (statusWord s).extractLsb' 3 1 = (if s.err then 1 else 0) ∧
    (statusWord s).extractLsb' 4 6 = s.bufLen ∧
    (statusWord s).extractLsb' 10 6 = 0 ∧
    (statusWord s).extractLsb' 16 8 = s.ecode ∧
    (statusWord s).extractLsb' 24 8 = 0 ∧
    exec (.readStatus 0 []) s = .next (answeredWith (le32bytes (statusWord s)) s)

/-! ### Errors -/

/-- R84, R301: a reserved OP, a P other than 0 on any command but INIT, or a P above 1 on INIT fails with E_BADCMD (0x01), in every
phase and whatever the payload; nothing but ERR, ECODE and the response changes. -/
def Obligations.BadHeaderAnswersBadCmd : Prop :=
  ∀ (hdr : BitVec 32) (payload : List Byte) (rest : List PortItem) (s : State), payload.length = headerN hdr →
    (headerOp hdr = 0x00 ∨ 0x0B ≤ headerOp hdr ∨ (headerOp hdr ≠ 0x01 ∧ headerP hdr ≠ 0) ∨
      (headerOp hdr = 0x01 ∧ 0x01 < headerP hdr)) →
    step { s with port := commandTraffic hdr payload ++ rest } = .next (failedWith 0x01 { s with port := rest })

/-- R302: before the first INIT, every command that reads or changes the computation fails with E_NOINIT (0x02), whatever its
payload, unless its P is illegal. -/
def Obligations.UninitAnswersNoInit : Prop :=
  ∀ (i : Instr) (s : State), s.phase = .uninit → i.p = 0 → i.op ≠ 0x01 → i.op ≠ 0x09 → i.op ≠ 0x0A →
    exec i s = .next (failedWith 0x02 s)

/-- R303, R267: in FINAL, ABSORB, FINALIZE, COMPRESS and LOAD_STATE fail with E_FINAL (0x03), whatever their payload, unless their P
is illegal, and change nothing else. -/
def Obligations.FinalAnswersFinalError : Prop :=
  ∀ (payload : List Byte) (s : State), s.phase = .final →
    exec (.absorb 0 payload) s = .next (failedWith 0x03 s) ∧ exec (.finalize 0 payload) s = .next (failedWith 0x03 s) ∧
    exec (.compress 0 payload) s = .next (failedWith 0x03 s) ∧ exec (.loadState 0 payload) s = .next (failedWith 0x03 s)

/-- R304: in ACTIVE, READ_DIGEST and READ_HEX fail with E_NOTFINAL (0x04), whatever their payload, unless their P is illegal;
READ_STATE gives the intermediate state. -/
def Obligations.ActiveDigestReadAnswersNotFinal : Prop :=
  ∀ (payload : List Byte) (s : State), s.phase = .active →
    exec (.readDigest 0 payload) s = .next (failedWith 0x04 s) ∧ exec (.readHex 0 payload) s = .next (failedWith 0x04 s) ∧
    exec (.readState 0 []) s = .next (answeredWith (serialize s.alg s.h) s)

/-- R307: where the P is legal and the phase allows the command, a payload of another length than the opcode requires (0; 64 for
COMPRESS; 4·W(ALG) for LOAD_STATE) fails with E_BADLEN (0x05). ABSORB never does. -/
def Obligations.WrongLengthAnswersBadLen : Prop :=
  (∀ (i : Instr) (s : State), i.op ≠ 0x02 → (i.p = 0 ∨ (i.op = 0x01 ∧ i.p = 1)) →
    (s.phase = .uninit → i.op = 0x01 ∨ i.op = 0x09 ∨ i.op = 0x0A) →
    (s.phase = .final → i.op ≠ 0x03 ∧ i.op ≠ 0x06 ∧ i.op ≠ 0x07) →
    (s.phase = .active → i.op ≠ 0x04 ∧ i.op ≠ 0x05) →
    i.payload.length ≠ (if i.op = 0x06 then 64 else if i.op = 0x07 then 4 * (match s.alg with | .md5 => 4 | .sha256 => 8) else 0) →
    exec i s = .next (failedWith 0x05 s)) ∧
  ∀ (p : BitVec 8) (x : List Byte) (s t : State), exec (.absorb p x) s = .next t → t.responses.getLast? ≠ some ⟨0x05, []⟩

/-- R86, R308, R27: every command, in every state, answers a next state with exactly one response. Either it fails with one code of
R300 and changes nothing but ERR, ECODE and the response; or it succeeds with code 0x00 and data of the length R83 gives it,
INIT clears ERR and ECODE, and every other command leaves them. -/
def Obligations.CommandSucceedsOrFailsWithOneCode : Prop :=
  ∀ (i : Instr) (s : State),
    (∃ c : BitVec 8, c ≠ 0x00 ∧ c ≤ 0x05 ∧ exec i s = .next (failedWith c s)) ∨
    (∃ t data, exec i s = .next t ∧ t.responses = s.responses ++ [⟨0x00, data⟩] ∧ data.length = responseLength s.alg i ∧
      t.port = s.port ∧ (i.op = 0x01 → t.err = false ∧ t.ecode = 0x00) ∧
      (i.op ≠ 0x01 → t.err = s.err ∧ t.ecode = s.ecode))

/-! ### The context commands -/

/-- R100: INIT, in every phase, starts a computation: ALG, the IV words in H[0..W-1], BUFLEN, LEN, PHASE, ERR, ECODE and an empty
OK response; BUF and all else stay. H[4..7] stay under MD5, the reading of log entry 5. -/
def Obligations.InitStartsComputation : Prop :=
  ∀ (alg : Alg) (s : State), ∃ t, exec (.init (match alg with | .md5 => 0 | .sha256 => 1) []) s = .next t ∧
    t = { s with
      alg := alg, h := t.h, bufLen := 0, len := 0, phase := .active, err := false, ecode := 0x00,
      responses := s.responses ++ [⟨0x00, []⟩] } ∧
    (alg = .md5 → t.h.toList = [0x67452301, 0xefcdab89, 0x98badcfe, 0x10325476] ++ s.h.toList.drop 4) ∧
    (alg = .sha256 → t.h.toList =
      [0x6a09e667, 0xbb67ae85, 0x3c6ef372, 0xa54ff53a, 0x510e527f, 0x9b05688c, 0x1f83d9ab, 0x5be0cd19])

/-- R104, R68: READ_STATUS, in every phase, answers the four bytes of STATUS, least significant first, and changes nothing else. -/
def Obligations.ReadStatusAnswersStatus : Prop :=
  ∀ s : State, ∃ data, exec (.readStatus 0 []) s = .next (answeredWith data s) ∧ data.length = 4 ∧
    ∀ k < 4, data[k]? = some (BitVec.ofNat 8 ((statusWord s).toNat / 256 ^ k))

/-- R108, R68: READ_LEN, in every phase, answers the eight bytes of LEN, least significant first, and changes nothing else. -/
def Obligations.ReadLenAnswersLength : Prop :=
  ∀ s : State, ∃ data, exec (.readLen 0 []) s = .next (answeredWith data s) ∧ data.length = 8 ∧
    ∀ k < 8, data[k]? = some (BitVec.ofNat 8 (s.len.toNat / 256 ^ k))

/-! ### The accumulator -/

/-- R120 to R123: ABSORB in ACTIVE. With c the valid bytes of BUF followed by the payload, H[0..W-1] is folded over the whole 64-byte blocks
of c in order, the rest of c is the new residual, LEN advances by N modulo 2^64, and nothing else but BUF and the response
changes. -/
def Obligations.AbsorbFoldsBlocks : Prop :=
  ∀ (x : List Byte) (s : State), s.phase = .active →
    let c := bufBytes s.buf s.bufLen.toNat ++ x
    ∃ t, exec (.absorb 0 x) s = .next t ∧
      t = { s with buf := t.buf, h := t.h, bufLen := t.bufLen, len := t.len, responses := s.responses ++ [⟨0x00, []⟩] } ∧
      t.h.toList.take (stateWords s.alg) =
        ((List.range (c.length / 64)).foldl (fun h j => compressHash s.alg h ((c.drop (64 * j)).take 64)) s.h).toList.take
          (stateWords s.alg) ∧
      t.bufLen.toNat = c.length - 64 * (c.length / 64) ∧
      bufBytes t.buf t.bufLen.toNat = c.drop (64 * (c.length / 64)) ∧
      t.len.toNat = (s.len.toNat + x.length) % 2 ^ 64

/-- R121, R63: the only bytes of BUF an ABSORB writes are those at (BUFLEN + j) mod 64 for a payload byte j; the others
keep their values, the reading of log entry 6. -/
def Obligations.AbsorbWritesOnlyItsBufferBytes : Prop :=
  ∀ (p : BitVec 8) (x : List Byte) (s t : State), exec (.absorb p x) s = .next t → ∀ i < 64,
    (∀ j < x.length, (s.bufLen.toNat + j) % 64 ≠ i) → bufRead t.buf i = bufRead s.buf i

/-- R124: after INIT, any two splits of one message into ABSORBs leave the same H[0..W-1], residual, BUFLEN and LEN, and FINALIZE then gives
the same digest. -/
def Obligations.SplitOfMessageDoesNotMatter : Prop :=
  ∀ (alg : Alg) (xs ys : List (List Byte)) (s : State), xs.flatten = ys.flatten →
    ∃ t u t' u', execAll (.init (algParam alg) [] :: xs.map (.absorb 0)) s = .next t ∧
      execAll (.init (algParam alg) [] :: ys.map (.absorb 0)) s = .next u ∧
      t.h.toList.take (stateWords alg) = u.h.toList.take (stateWords alg) ∧ bufBytes t.buf t.bufLen.toNat = bufBytes u.buf u.bufLen.toNat ∧ t.bufLen = u.bufLen ∧ t.len = u.len ∧
      exec (.finalize 0 []) t = .next t' ∧ exec (.finalize 0 []) u = .next u' ∧
      serialize t'.alg t'.h = serialize u'.alg u'.h

/-! ### Padding -/

/-- R142, R144: for a residual of at most 63 bytes, the fill count z is (55 - len(r)) mod 64, the least count that brings the length
to 56 modulo 64, and at most 63; the padding has len(r) + 1 + z + 8 bytes: 64 when the residual has at most 55, else 128. -/
def Obligations.PadFillAndLength : Prop :=
  ∀ (alg : Alg) (r : List Byte) (len : U64), r.length ≤ 63 →
    (padZeros r.length : Int) = (55 - (r.length : Int)) % 64 ∧ padZeros r.length ≤ 63 ∧
    (r.length + 1 + padZeros r.length) % 64 = 56 ∧ (∀ z, (r.length + 1 + z) % 64 = 56 → padZeros r.length ≤ z) ∧
    (pad alg r len).length = r.length + 1 + padZeros r.length + 8 ∧ (pad alg r len).length = (if r.length ≤ 55 then 64 else 128)

/-- R145, R141, R143: every byte of the padding: the residual, 0x80 directly after it, zeros, and in the last eight bytes
bitlen = (L * 8) mod 2^64, least significant byte first for MD5 and most significant first for SHA-256. -/
def Obligations.PadLaysOutBytes : Prop :=
  ∀ (alg : Alg) (r : List Byte) (len : U64) (i : Nat), r.length ≤ 63 →
    let n := if r.length ≤ 55 then 64 else 128
    let bitlen := len.toNat * 8 % 2 ^ 64
    (i < r.length → (pad alg r len)[i]? = r[i]?) ∧
    (i = r.length → (pad alg r len)[i]? = some 0x80) ∧
    (r.length < i → i < n - 8 → (pad alg r len)[i]? = some 0x00) ∧
    (i < 8 → (pad alg r len)[n - 8 + i]? =
      some (BitVec.ofNat 8 (bitlen / 256 ^ (match alg with | .md5 => i | .sha256 => 7 - i))))

/-! ### The compression cores -/

/-- R161 to R164, R168, R175, R176: `md5_compress` is 64 rounds from the state, round i by the function, word index and shift of its
range with the new b equal to the old b plus the rotated sum (90_conflicts.md C1), then the feed-forward addition. -/
def Obligations.Md5CompressRunsItsRounds : Prop :=
  ∀ (st : Md5Vars) (block : List Byte), ∃ v : Nat → Md5Vars, v 0 = st ∧
    (∀ i < 64, ∃ f g,
      ((i < 16 ∧ f = ((v i).b &&& (v i).c) ||| (~~~(v i).b &&& (v i).d) ∧ g = i) ∨
       (16 ≤ i ∧ i < 32 ∧ f = ((v i).d &&& (v i).b) ||| (~~~(v i).d &&& (v i).c) ∧ g = (5 * i + 1) % 16) ∨
       (32 ≤ i ∧ i < 48 ∧ f = (v i).b ^^^ (v i).c ^^^ (v i).d ∧ g = (3 * i + 5) % 16) ∨
       (48 ≤ i ∧ f = (v i).c ^^^ ((v i).b ||| ~~~(v i).d) ∧ g = (7 * i) % 16)) ∧
      v (i + 1) = ⟨(v i).d, (v i).b + rotl (f + (v i).a + md5K i + le32 block g) (md5Shift i), (v i).b, (v i).c⟩) ∧
    md5Compress st block = ⟨st.a + (v 64).a, st.b + (v 64).b, st.c + (v 64).c, st.d + (v 64).d⟩

/-- R165: within rounds 16q to 16q+15 the shift amounts are the four of cycle q, over and over; every one lies in 4..23. -/
def Obligations.Md5ShiftAmountsCycle : Prop :=
  ∀ i < 64, md5Shift i =
      (match i / 16 with | 0 => [7, 12, 17, 22] | 1 => [5, 9, 14, 20] | 2 => [4, 11, 16, 23] | _ => [6, 10, 15, 21]).getD (i % 4) 0 ∧
    4 ≤ md5Shift i ∧ md5Shift i ≤ 23

/-- R170: each of the four ranges of rounds reads every message word exactly once. -/
def Obligations.Md5RangesReadEveryWordOnce : Prop :=
  ∀ q < 4, ((List.range 16).map (fun j => md5Index (16 * q + j))).Perm (List.range 16)

/-- R201, R204: the message schedule has 64 words, the block's sixteen big-endian words and then the expansion. -/
def Obligations.Sha256ScheduleExpands : Prop :=
  ∀ block : List Byte, (shaSchedule block).length = 64 ∧
    (∀ k < 16, (shaSchedule block)[k]? = some (be32 block k)) ∧
    (∀ i, 16 ≤ i → i < 64 → (shaSchedule block)[i]? = some
      ((shaSchedule block).getD (i - 16) 0 + smallSigma0 ((shaSchedule block).getD (i - 15) 0) +
        (shaSchedule block).getD (i - 7) 0 + smallSigma1 ((shaSchedule block).getD (i - 2) 0)))

/-- R206, R215, R217, R218: `sha256_compress` is 64 rounds from the state over the message schedule, then the feed-forward
addition. -/
def Obligations.Sha256CompressRunsItsRounds : Prop :=
  ∀ (st : ShaVars) (block : List Byte), ∃ v : Nat → ShaVars, v 0 = st ∧
    (∀ i < 64, ∃ temp1 temp2,
      temp1 = (v i).h + bigSigma1 (v i).e + shaCh (v i).e (v i).f (v i).g + shaK i + (shaSchedule block).getD i 0 ∧
      temp2 = bigSigma0 (v i).a + shaMaj (v i).a (v i).b (v i).c ∧
      v (i + 1) = ⟨temp1 + temp2, (v i).a, (v i).b, (v i).c, (v i).d + temp1, (v i).e, (v i).f, (v i).g⟩) ∧
    sha256Compress st block =
      ⟨st.a + (v 64).a, st.b + (v 64).b, st.c + (v 64).c, st.d + (v 64).d,
       st.e + (v 64).e, st.f + (v 64).f, st.g + (v 64).g, st.h + (v 64).h⟩

/-- R200, R210: K_SHA[i] is the low 32 bits of the integer cube root of p_i · 2^96, and IV_SHA[k] the low 32 bits of the integer
square root of p_k · 2^64, p_i the (i+1)-th prime. Both readings are general knowledge by the spec's own mark (G6, G7; log entry 16). -/
def Obligations.ShaConstantsAreRootsOfPrimes : Prop :=
  let p : List Nat := (List.range 312).filter (fun n => 2 ≤ n ∧ ∀ d < n, 2 ≤ d → n % d ≠ 0)
  p.length = 64 ∧
  (∀ i < 64, ∃ q < 7, let x := q * 2 ^ 32 + (shaK i).toNat; x ^ 3 ≤ p.getD i 0 * 2 ^ 96 ∧ p.getD i 0 * 2 ^ 96 < (x + 1) ^ 3) ∧
  (∀ k < 8, ∃ q < 5, let x := q * 2 ^ 32 + (shaIv.getD k 0).toNat;
    x ^ 2 ≤ p.getD k 0 * 2 ^ 64 ∧ p.getD k 0 * 2 ^ 64 < (x + 1) ^ 2)

/-- R178, R220: the selecting functions, bit by bit: F takes c where b has a 1 and d elsewhere, G takes b where d has a 1 and c
elsewhere, ch takes f where e has a 1 and g elsewhere, and maj is the bitwise majority. -/
def Obligations.MixingFunctionsSelectBits : Prop :=
  ∀ (x y z : Word) (k : Nat),
    (md5F x y z).getLsbD k = (if x.getLsbD k then y.getLsbD k else z.getLsbD k) ∧
    (md5G x y z).getLsbD k = (if z.getLsbD k then x.getLsbD k else y.getLsbD k) ∧
    (shaCh x y z).getLsbD k = (if x.getLsbD k then y.getLsbD k else z.getLsbD k) ∧
    (shaMaj x y z).getLsbD k = decide (2 ≤ (x.getLsbD k).toNat + (y.getLsbD k).toNat + (z.getLsbD k).toNat)

/-- R10: bit k of x goes to bit k + n mod 32 under rotl by n, and back under rotr. -/
def Obligations.RotationsMoveEveryBit : Prop :=
  ∀ (x : Word) (n k : Nat), 1 ≤ n → n ≤ 31 → k < 32 →
    (rotl x n).getLsbD ((k + n) % 32) = x.getLsbD k ∧ (rotr x n).getLsbD k = x.getLsbD ((k + n) % 32)

/-! ### Direct core access -/

/-- R240, R241: COMPRESS in ACTIVE applies the algorithm's compression function to H and the 64-byte block; BUF, BUFLEN,
LEN, PHASE and all else but the response stay. H[4..7] stay under MD5, the reading of log entry 5. -/
def Obligations.CompressAppliesTheCore : Prop :=
  ∀ (block : List Byte) (s : State), s.phase = .active → block.length = 64 →
    ∃ t, exec (.compress 0 block) s = .next t ∧
      t = { s with h := t.h, responses := s.responses ++ [⟨0x00, []⟩] } ∧
      (s.alg = .md5 →
        (⟨t.h[0], t.h[1], t.h[2], t.h[3]⟩ : Md5Vars) = md5Compress ⟨s.h[0], s.h[1], s.h[2], s.h[3]⟩ block ∧
        t.h.toList.drop 4 = s.h.toList.drop 4) ∧
      (s.alg = .sha256 →
        (⟨t.h[0], t.h[1], t.h[2], t.h[3], t.h[4], t.h[5], t.h[6], t.h[7]⟩ : ShaVars) =
          sha256Compress ⟨s.h[0], s.h[1], s.h[2], s.h[3], s.h[4], s.h[5], s.h[6], s.h[7]⟩ block)

/-- R246, R248: LOAD_STATE in ACTIVE, with 4·W(ALG) bytes, writes the payload's words to H[0..W-1], little-endian for MD5 and
big-endian for SHA-256; all but H and the response stays. -/
def Obligations.LoadStateWritesHash : Prop :=
  ∀ (payload : List Byte) (s : State), s.phase = .active → payload.length = (match s.alg with | .md5 => 16 | .sha256 => 32) →
    ∃ t, exec (.loadState 0 payload) s = .next t ∧
      t = { s with h := t.h, responses := s.responses ++ [⟨0x00, []⟩] } ∧
      (s.alg = .md5 → t.h.toList.take 4 = [le32 payload 0, le32 payload 1, le32 payload 2, le32 payload 3]) ∧
      (s.alg = .sha256 → t.h.toList = (List.range 8).map (be32 payload))

/-- R250: READ_STATE in ACTIVE and in FINAL answers H in the algorithm's byte order, 4·W(ALG) bytes, and changes nothing else. -/
def Obligations.ReadStateAnswersHash : Prop :=
  ∀ s : State, s.phase ≠ .uninit →
    exec (.readState 0 []) s = .next (answeredWith (serialize s.alg s.h) s) ∧
      (serialize s.alg s.h).length = (match s.alg with | .md5 => 16 | .sha256 => 32)

/-- R244: LOAD_STATE with payload x, then READ_STATE, returns x, which is the serialization of the H that was loaded. -/
def Obligations.LoadedStateReadsBack : Prop :=
  ∀ (x : List Byte) (s : State), s.phase = .active → x.length = (match s.alg with | .md5 => 16 | .sha256 => 32) →
    ∃ t, execAll [.loadState 0 x, .readState 0 []] s = .next t ∧ t.responses = s.responses ++ [⟨0x00, []⟩, ⟨0x00, x⟩] ∧
      x = serialize s.alg t.h

/-- R252: in ACTIVE, LOAD_STATE s, COMPRESS m, READ_STATE (the pseudo-instruction RAW_COMPRESS of R90) returns the compression of s and
m, serialized; BUF, BUFLEN and LEN are unchanged. -/
def Obligations.RawCompressReachesTheCore : Prop :=
  ∀ (st m : List Byte) (s : State), s.phase = .active → m.length = 64 → st.length = (match s.alg with | .md5 => 16 | .sha256 => 32) →
    ∃ t, execAll (Pseudo.rawCompress st m).expand s = .next t ∧ t.buf = s.buf ∧ t.bufLen = s.bufLen ∧ t.len = s.len ∧
      t.responses = s.responses ++ [⟨0x00, []⟩, ⟨0x00, []⟩, ⟨0x00, serialize s.alg t.h⟩] ∧
      (s.alg = .md5 → (⟨t.h[0], t.h[1], t.h[2], t.h[3]⟩ : Md5Vars) =
        md5Compress ⟨le32 st 0, le32 st 1, le32 st 2, le32 st 3⟩ m) ∧
      (s.alg = .sha256 → (⟨t.h[0], t.h[1], t.h[2], t.h[3], t.h[4], t.h[5], t.h[6], t.h[7]⟩ : ShaVars) =
        sha256Compress ⟨be32 st 0, be32 st 1, be32 st 2, be32 st 3, be32 st 4, be32 st 5, be32 st 6, be32 st 7⟩ m)

/-! ### The finalizer -/

/-- R265, R266, R144: FINALIZE in ACTIVE compresses the padded residual, one block when BUFLEN is at most 55 and else two in order,
sets BUFLEN to 0 and PHASE to FINAL; LEN, ALG and all else but H and the response stay. That the bytes of BUF stay is the reading of
log entry 6. -/
def Obligations.FinalizeCompressesThePadding : Prop :=
  ∀ s : State, s.phase = .active →
    let p := pad s.alg (bufBytes s.buf s.bufLen.toNat) s.len
    ∃ t, exec (.finalize 0 []) s = .next t ∧
      t = { s with h := t.h, bufLen := 0, phase := .final, responses := s.responses ++ [⟨0x00, []⟩] } ∧
      t.h.toList.take (stateWords s.alg) = (if s.bufLen.toNat ≤ 55 then compressHash s.alg s.h p
        else compressHash s.alg (compressHash s.alg s.h (p.take 64)) (p.drop 64)).toList.take (stateWords s.alg)

/-- R270: READ_DIGEST in FINAL answers the digest, DL(ALG) bytes, and changes nothing else. -/
def Obligations.ReadDigestAnswersDigest : Prop :=
  ∀ s : State, s.phase = .final →
    exec (.readDigest 0 []) s = .next (answeredWith (serialize s.alg s.h) s) ∧
      (serialize s.alg s.h).length = (match s.alg with | .md5 => 16 | .sha256 => 32)

/-- R274: READ_HEX in FINAL answers the digest as text, 2·DL(ALG) bytes, and changes nothing else. -/
def Obligations.ReadHexAnswersDigestText : Prop :=
  ∀ s : State, s.phase = .final →
    exec (.readHex 0 []) s = .next (answeredWith (hex (serialize s.alg s.h)) s) ∧
      (hex (serialize s.alg s.h)).length = (match s.alg with | .md5 => 32 | .sha256 => 64)

/-- R260: byte m of word k of the digest is bits 8m+7:8m of H[k] for MD5 and bits 31-8m:24-8m for SHA-256; there is no other byte. -/
def Obligations.SerializeLaysOutWords : Prop :=
  ∀ (alg : Alg) (h : Vector Word 8), (serialize alg h).length = 4 * stateWords alg ∧
    ∀ (k : Nat) (hk : k < 8) (m : Nat), k < stateWords alg → m < 4 →
      (serialize alg h)[4 * k + m]? =
        some (BitVec.ofNat 8 ((h[k]).toNat / 256 ^ (match alg with | .md5 => m | .sha256 => 3 - m)))

/-- R261, R262: two lowercase hex digits per byte, in order, the digit of bits 7:4 first, with no separator. -/
def Obligations.HexTextHasTwoDigitsPerByte : Prop :=
  let digits : List Byte := [0x30, 0x31, 0x32, 0x33, 0x34, 0x35, 0x36, 0x37, 0x38, 0x39, 0x61, 0x62, 0x63, 0x64, 0x65, 0x66]
  ∀ d : List Byte, (hex d).length = 2 * d.length ∧
    ∀ (j : Nat) (hj : j < d.length), (hex d)[2 * j]? = digits[(d[j]).toNat / 16]? ∧
      (hex d)[2 * j + 1]? = digits[(d[j]).toNat % 16]?

/-- R268, R266, R122: from any state, INIT, any ABSORBs, FINALIZE and READ_DIGEST answer the digest of the bytes absorbed, in order:
the message padded as a whole, its blocks folded into the IV, serialized. -/
def Obligations.StreamedDigestIsDigestOfMessage : Prop :=
  ∀ (alg : Alg) (xs : List (List Byte)) (s : State),
    ∃ t, execAll (.init (algParam alg) [] :: (xs.map (.absorb 0) ++ [.finalize 0 [], .readDigest 0 []])) s = .next t ∧
      t.phase = .final ∧ t.alg = alg ∧
      t.responses = s.responses ++ List.replicate (xs.length + 2) ⟨0x00, []⟩ ++ [⟨0x00, digestOf alg xs.flatten⟩]

/-! ### Rules of the whole machine -/

/-- R21, R25, R32, R63, R267: which commands can change which register: ALG only INIT; LEN only INIT and ABSORB; H only INIT, ABSORB,
FINALIZE, COMPRESS and LOAD_STATE; BUF only ABSORB; BUFLEN only INIT, ABSORB and FINALIZE; PHASE only INIT and FINALIZE. That
the bytes of BUF from BUFLEN on stay is the reading of log entry 6, and H[4..7] under MD5 that of log entry 5; `resets` and `port` are
the model's own (log entries 4 and 1). -/
def Obligations.OnlyNamedCommandsWrite : Prop :=
  ∀ (i : Instr) (s t : State), exec i s = .next t →
    (t.alg ≠ s.alg → i.op = 0x01) ∧
    (t.len ≠ s.len → i.op = 0x01 ∨ i.op = 0x02) ∧
    (t.h ≠ s.h → i.op = 0x01 ∨ i.op = 0x02 ∨ i.op = 0x03 ∨ i.op = 0x06 ∨ i.op = 0x07) ∧
    (t.buf ≠ s.buf → i.op = 0x02) ∧
    (t.bufLen ≠ s.bufLen → i.op = 0x01 ∨ i.op = 0x02 ∨ i.op = 0x03) ∧
    (t.phase ≠ s.phase → (i.op = 0x01 ∧ t.phase = .active) ∨ (i.op = 0x03 ∧ s.phase = .active ∧ t.phase = .final)) ∧
    t.resets = s.resets ∧ t.port = s.port

/-- R23: no command that leaves ALG at MD5 writes H[4..7]: they keep their values, the reading of log entry 5. -/
def Obligations.Md5LeavesHighWords : Prop :=
  ∀ (i : Instr) (s t : State), exec i s = .next t → t.alg = .md5 → t.h.toList.drop 4 = s.h.toList.drop 4

/-- R243, R267: in FINAL, no command except INIT changes H, ALG, BUFLEN or LEN, or leaves FINAL; the digest stays the same; ABSORB,
FINALIZE, COMPRESS and LOAD_STATE with P = 0 fail with E_FINAL. -/
def Obligations.FinalFreezesComputation : Prop :=
  ∀ (i : Instr) (s t : State), s.phase = .final → i.op ≠ 0x01 → exec i s = .next t →
    t.h = s.h ∧ t.alg = s.alg ∧ t.bufLen = s.bufLen ∧ t.len = s.len ∧ t.phase = .final ∧
      serialize t.alg t.h = serialize s.alg s.h ∧
      (i.p = 0 → i.op = 0x02 ∨ i.op = 0x03 ∨ i.op = 0x06 ∨ i.op = 0x07 → t = failedWith 0x03 s)

/-- R71: repeating a READ command gives the same response again, and one that succeeds changes nothing but the responses. -/
def Obligations.ReadsAreRepeatable : Prop :=
  ∀ (i : Instr) (s t u : State),
    (i.op = 0x04 ∨ i.op = 0x05 ∨ i.op = 0x08 ∨ i.op = 0x09 ∨ i.op = 0x0A) → exec i s = .next t → exec i t = .next u →
      ∃ r : Response, t.responses = s.responses ++ [r] ∧ u.responses = s.responses ++ [r, r] ∧
        (r.code = 0x00 → t = { s with responses := s.responses ++ [r] })

/-- R34, R23, R24: no step depends on an unspecified cell. Two states that differ only in H before the first INIT, in H[4..7] under
MD5 and in BUF from BUFLEN on take steps with the same responses and status, and differ after them in such cells only. -/
def Obligations.UnspecifiedCellsAreNeverSeen : Prop :=
  ∀ s t s' : State, SameToHost s t → step s = .next s' → ∃ t', step t = .next t' ∧ SameToHost s' t'

/-- R75, R313: of several instances, a step of one leaves every other as it is, and steps of two different instances, in either
order, come to the same. -/
def Obligations.InstancesAreIndependent : Prop :=
  ∀ (ncores : Nat) (sys : System ncores) (j : Fin ncores) (a : System ncores), sys.stepAt j = .next a →
    (∀ k : Fin ncores, k ≠ j → a[k] = sys[k]) ∧
    ∀ (k : Fin ncores) (b : System ncores), k ≠ j → sys.stepAt k = .next b →
      ∃ c, a.stepAt k = .next c ∧ b.stepAt j = .next c

/-! ### Pseudo-instructions and the assembler -/

/-- R90: ABSORB_LONG sends the bytes in order, in pieces of 65535 bytes of which only the last can be shorter; one empty piece when
there are no bytes, and no empty piece otherwise. -/
def Obligations.AbsorbLongSplitsMessage : Prop :=
  ∀ bytes : List Byte,
    (absorbPieces bytes).flatten = bytes ∧ (absorbPieces bytes).length = (if bytes = [] then 1 else (bytes.length + 65534) / 65535) ∧
    (∀ x ∈ (absorbPieces bytes).dropLast, x.length = 65535) ∧
    (∀ x ∈ absorbPieces bytes, x.length ≤ 65535 ∧ (bytes ≠ [] → x ≠ []))

/-- R90, R268: `HASH alg, bytes` and `HASH_HEX alg, bytes`, from any state and for bytes of any number, end with the digest of the
bytes, as bytes or as text; every command they expand to is one the port can carry. -/
def Obligations.HashAnswersTheDigest : Prop :=
  ∀ (alg : Alg) (bytes : List Byte) (s : State),
    (∀ i ∈ (Pseudo.hash alg bytes).expand ++ (Pseudo.hashHex alg bytes).expand, i.wellFormed = true) ∧
    (∃ t, execAll (Pseudo.hash alg bytes).expand s = .next t ∧ t.responses.getLast? = some ⟨0x00, digestOf alg bytes⟩) ∧
    (∃ t, execAll (Pseudo.hashHex alg bytes).expand s = .next t ∧
      t.responses.getLast? = some ⟨0x00, hex (digestOf alg bytes)⟩)

/-- R89: the line `ABSORB hex:<h...>` with the bytes of any payload of at most 65535 bytes in hex, and `LOAD_STATE hex:<...>` with 16 or
32, assemble to the command with that payload. That `ABSORB hex:` with no digit is the empty payload, the case of no bytes, is the
model's choice (log entry 18), not R89's. -/
def Obligations.HexLinesAssemble : Prop :=
  ∀ x : List Byte,
    let text : List Char := (hex x).map (fun b => Char.ofNat b.toNat)
    (x.length ≤ 65535 →
      assembleLine ('A' :: 'B' :: 'S' :: 'O' :: 'R' :: 'B' :: ' ' :: 'h' :: 'e' :: 'x' :: ':' :: text) = some (.command (.absorb 0 x))) ∧
    (x.length = 16 ∨ x.length = 32 →
      assembleLine ('L' :: 'O' :: 'A' :: 'D' :: '_' :: 'S' :: 'T' :: 'A' :: 'T' :: 'E' :: ' ' :: 'h' :: 'e' :: 'x' :: ':' :: text) =
        some (.command (.loadState 0 x)))
end

