-- ==== Sys2Proof/Laws/Ops.lean ====
section
/-! SUPPORT. The shared operations on BUF and H, and the frame of every command, said once. -/

namespace Sys2Proof.Machine

@[simp] theorem writeHash_get (n : Nat) (f : Nat → Word) (h : Vector Word 8) (k : Nat) (hk : k < 8) :
    (writeHash n f h)[k] = if k < n then f k else h[k] := by
  simp [writeHash]

theorem bufRead_of_lt (buf : Vector Byte 64) {i : Nat} (hi : i < 64) : bufRead buf i = buf[i] := by
  simp [bufRead, hi]

theorem bufRead_bufWrite (buf : Vector Byte 64) (n i : Nat) (v : Byte) :
    bufRead (bufWrite buf n v) i = if i = n ∧ n < 64 then v else bufRead buf i := by
  simp only [bufRead, bufWrite, Vector.getElem?_setIfInBounds]
  by_cases hin : n = i
  · by_cases hn : n < 64
    · simp [hin, hin ▸ hn]
    · have hi : ¬ i < 64 := hin ▸ hn
      simp [hin, hi]
  · simp [hin, Ne.symm hin]

@[simp] theorem bufBytes_length (buf : Vector Byte 64) (n : Nat) : (bufBytes buf n).length = n := by
  simp [bufBytes]

@[simp] theorem bufBytes_zero (buf : Vector Byte 64) : bufBytes buf 0 = [] := rfl

theorem bufBytes_succ (buf : Vector Byte 64) (n : Nat) : bufBytes buf (n + 1) = bufBytes buf n ++ [bufRead buf n] := by
  simp [bufBytes, List.range_succ]

/-- The valid bytes depend on the bytes below n only. -/
theorem bufBytes_congr {b c : Vector Byte 64} {n : Nat} (h : ∀ i < n, bufRead b i = bufRead c i) :
    bufBytes b n = bufBytes c n := by
  simpa [bufBytes] using h

theorem bufBytes_bufWrite (buf : Vector Byte 64) {n : Nat} (hn : n < 64) (v : Byte) :
    bufBytes (bufWrite buf n v) (n + 1) = bufBytes buf n ++ [v] := by
  rw [bufBytes_succ, bufRead_bufWrite, if_pos ⟨rfl, hn⟩, bufBytes_congr]
  intro i hi
  rw [bufRead_bufWrite, if_neg (by omega)]

theorem runCommand_eq_error {op p : BitVec 8} {payload : List Byte} {effect : State → State} {s : State} {c : ErrorCode}
    (h : check op p payload.length s = some c) : runCommand op p payload effect s = .next (raiseError c s) := by
  simp [runCommand, h]

theorem runCommand_eq_effect {op p : BitVec 8} {payload : List Byte} {effect : State → State} {s : State}
    (h : check op p payload.length s = none) : runCommand op p payload effect s = .next (effect s) := by
  simp [runCommand, h]

/-- No command with a reserved OP passes the check, whatever else holds (R301). -/
theorem check_reserved {op : BitVec 8} (p : BitVec 8) (n : Nat) (s : State) (h : op = 0x00 ∨ 0x0B ≤ op) :
    check op p n s = some .badCmd := by
  exact if_pos h

end Sys2Proof.Machine
end

