-- ==== Sys2Proof/Laws/Compression.lean ====
section
/-! SUPPORT. What compressing one block and folding a sequence of blocks do to H, said once. -/

namespace Sys2Proof.Machine

@[simp] theorem compressWords_length (alg : Alg) (h : Vector Word 8) (block : List Byte) :
    (compressWords alg h block).length = stateWords alg := by
  cases alg <;> rfl

/-- Under MD5, H[4..7] stay as they are (R23). -/
theorem compressHash_high (alg : Alg) (h : Vector Word 8) (block : List Byte) {k : Nat} (hk : k < 8)
    (hw : stateWords alg ≤ k) : (compressHash alg h block)[k] = h[k] := by
  simp [compressHash, Nat.not_lt.mpr hw]

/-- The compressed words depend on H[0..W-1] only. -/
theorem compressWords_congr {alg : Alg} {h g : Vector Word 8} (block : List Byte)
    (e : ∀ (k : Nat) (hk : k < 8), k < stateWords alg → h[k] = g[k]) : compressWords alg h block = compressWords alg g block := by
  cases alg with
  | md5 =>
    simp only [compressWords, md5State]
    rw [e 0 (by decide) (by decide), e 1 (by decide) (by decide), e 2 (by decide) (by decide), e 3 (by decide) (by decide)]
  | sha256 =>
    have : h = g := Vector.ext fun i hi => e i hi hi
    rw [this]

/-- Compressing two register files that agree on H[0..W-1] gives two that agree there. -/
theorem compressHash_congr {alg : Alg} {h g : Vector Word 8} (block : List Byte)
    (e : ∀ (k : Nat) (hk : k < 8), k < stateWords alg → h[k] = g[k]) (k : Nat) (hk : k < 8) (hw : k < stateWords alg) :
    (compressHash alg h block)[k] = (compressHash alg g block)[k] := by
  simp [compressHash, hw, compressWords_congr block e]

theorem slice_append_left (p q : List Byte) {i n : Nat} (h : i + n ≤ p.length) : slice (p ++ q) i n = slice p i n := by
  simp only [slice]
  rw [List.drop_append_of_le_length (by omega), List.take_append_of_le_length (by simp; omega)]

theorem slice_append_right (p q : List Byte) (i n : Nat) : slice (p ++ q) (p.length + i) n = slice q i n := by
  simp [slice, List.drop_append, List.drop_eq_nil_of_le]

@[simp] theorem foldBlocks_nil (alg : Alg) (h : Vector Word 8) : foldBlocks alg h [] = h := rfl

/-- Fewer than 64 bytes hold no block. -/
theorem foldBlocks_short (alg : Alg) (h : Vector Word 8) {p : List Byte} (hp : p.length < 64) : foldBlocks alg h p = h := by
  simp [foldBlocks, Nat.div_eq_of_lt hp]

/-- One block. -/
theorem foldBlocks_single (alg : Alg) (h : Vector Word 8) {p : List Byte} (hp : p.length = 64) :
    foldBlocks alg h p = compressHash alg h p := by
  have h1 : slice p 0 64 = p := by simp [slice, ← hp]
  simp [foldBlocks, hp, Config.blockBytes, h1]

theorem foldl_congr_mem {α β : Type} {f g : α → β → α} (l : List β) (a : α) (h : ∀ x, ∀ b ∈ l, f x b = g x b) :
    l.foldl f a = l.foldl g a := by
  induction l generalizing a with
  | nil => rfl
  | cons b l ih =>
    simp only [List.foldl_cons]
    rw [h a b (by simp), ih _ fun x c hc => h x c (by simp [hc])]

/-- Blocks are folded in order: whole blocks first, then the rest (R122). -/
theorem foldBlocks_append (alg : Alg) (h : Vector Word 8) (p q : List Byte) (hp : 64 ∣ p.length) :
    foldBlocks alg h (p ++ q) = foldBlocks alg (foldBlocks alg h p) q := by
  obtain ⟨m, hm⟩ := hp
  have hdiv : (p ++ q).length / 64 = m + q.length / 64 := by
    rw [List.length_append, hm, Nat.mul_add_div (by decide)]
  have hm' : p.length / 64 = m := by omega
  simp only [foldBlocks, Config.blockBytes, hdiv, hm', List.range_add, List.foldl_append, List.foldl_map]
  rw [foldl_congr_mem (List.range m) h (g := fun h j => compressHash alg h (slice p (64 * j) 64))]
  · refine foldl_congr_mem _ _ fun x j _ => ?_
    rw [show 64 * (m + j) = p.length + 64 * j by omega, slice_append_right]
  · intro x j hj
    rw [List.mem_range] at hj
    rw [slice_append_left p q (by omega)]

/-- The bytes after the last whole block do not matter. -/
theorem foldBlocks_append_short (alg : Alg) (h : Vector Word 8) (p q : List Byte) (hp : 64 ∣ p.length) (hq : q.length < 64) :
    foldBlocks alg h (p ++ q) = foldBlocks alg h p := by
  rw [foldBlocks_append alg h p q hp, foldBlocks_short alg _ hq]

/-- Under MD5, H[4..7] stay as they are (R23). -/
theorem foldBlocks_high (alg : Alg) (h : Vector Word 8) (p : List Byte) {k : Nat} (hk : k < 8) (hw : stateWords alg ≤ k) :
    (foldBlocks alg h p)[k] = h[k] := by
  have aux : ∀ (l : List Nat) (h : Vector Word 8),
      (l.foldl (fun h j => compressHash alg h (slice p (64 * j) 64)) h)[k] = h[k] := by
    intro l
    induction l with
    | nil => intro h; rfl
    | cons j l ih => intro h; rw [List.foldl_cons, ih, compressHash_high alg h _ hk hw]
  exact aux _ h

/-- Folding into two register files that agree on H[0..W-1] gives two that agree there. -/
theorem foldBlocks_congr {alg : Alg} {h g : Vector Word 8} (p : List Byte)
    (e : ∀ (k : Nat) (hk : k < 8), k < stateWords alg → h[k] = g[k]) (k : Nat) (hk : k < 8) (hw : k < stateWords alg) :
    (foldBlocks alg h p)[k] = (foldBlocks alg g p)[k] := by
  have aux : ∀ (l : List Nat) (h g : Vector Word 8), (∀ (k : Nat) (hk : k < 8), k < stateWords alg → h[k] = g[k]) →
      (l.foldl (fun h j => compressHash alg h (slice p (64 * j) 64)) h)[k] =
        (l.foldl (fun h j => compressHash alg h (slice p (64 * j) 64)) g)[k] := by
    intro l
    induction l with
    | nil => intro h g e; exact e k hk hw
    | cons j l ih => intro h g e; exact ih _ _ (compressHash_congr _ e)
  exact aux _ h g e

end Sys2Proof.Machine
end

