-- ==== Sys2Proof/Laws/Accumulator.lean ====
section
/-! SUPPORT. What the accumulator's loop does, said once: its byte-by-byte form against the block form, and its frame. -/

namespace Sys2Proof.Machine

theorem accumLoop_append (alg : Alg) (a : Accum) (x y : List Byte) :
    accumLoop alg a (x ++ y) = accumLoop alg (accumLoop alg a x) y := by
  simp [accumLoop]

@[simp] theorem accumLoop_nil (alg : Alg) (a : Accum) : accumLoop alg a [] = a := rfl

theorem accumLoop_cons (alg : Alg) (a : Accum) (b : Byte) (x : List Byte) :
    accumLoop alg a (b :: x) = accumLoop alg (accumByte alg a b) x := rfl

/-- A byte that does not complete a block. -/
theorem accumByte_partial (alg : Alg) (a : Accum) (b : Byte) (h : a.n + 1 ≠ 64) :
    accumByte alg a b = ⟨bufWrite a.buf a.n b, a.h, a.n + 1⟩ := by
  simp [accumByte, h]

/-- The byte that completes a block. -/
theorem accumByte_full (alg : Alg) (a : Accum) (b : Byte) (h : a.n + 1 = 64) :
    accumByte alg a b = ⟨bufWrite a.buf a.n b, compressHash alg a.h (bufBytes a.buf a.n ++ [b]), 0⟩ := by
  have e := bufBytes_bufWrite a.buf (show a.n < 64 by omega) b
  rw [h] at e
  simp [accumByte, h, e]

/-- The block form of the loop (R122): with `c` the valid bytes and the new ones, H is folded over the whole blocks of `c` and
the rest of `c` is what BUF then holds. -/
theorem accumLoop_blocks (alg : Alg) (a : Accum) (hn : a.n < 64) (x : List Byte) :
    let c := bufBytes a.buf a.n ++ x
    let r := accumLoop alg a x
    r.h = foldBlocks alg a.h c ∧ r.n = c.length % 64 ∧ bufBytes r.buf r.n = c.drop (64 * (c.length / 64)) := by
  induction x generalizing a with
  | nil =>
    have hd : a.n / 64 = 0 := Nat.div_eq_of_lt hn
    simp [foldBlocks_short alg a.h (p := bufBytes a.buf a.n) (by simpa using hn), Nat.mod_eq_of_lt hn, hd]
  | cons b x ih =>
    simp only [accumLoop_cons]
    by_cases h : a.n + 1 = 64
    · rw [accumByte_full alg a b h]
      have hblk : (bufBytes a.buf a.n ++ [b]).length = 64 := by simpa using h
      have hc : bufBytes a.buf a.n ++ b :: x = (bufBytes a.buf a.n ++ [b]) ++ x := by simp
      obtain ⟨h1, h2, h3⟩ := ih ⟨bufWrite a.buf a.n b, compressHash alg a.h (bufBytes a.buf a.n ++ [b]), 0⟩ (show 0 < 64 by decide)
      simp only [bufBytes_zero, List.nil_append] at h1 h2 h3
      refine ⟨?_, ?_, ?_⟩
      · rw [h1, hc, foldBlocks_append alg a.h _ x (by simp [hblk]), foldBlocks_single alg a.h hblk]
      · rw [h2, hc, List.length_append, hblk]; omega
      · rw [h3, hc, List.length_append, hblk, show 64 * ((64 + x.length) / 64) = 64 + 64 * (x.length / 64) by omega,
          ← hblk, List.drop_length_add_append]
    · rw [accumByte_partial alg a b h]
      have h' := ih ⟨bufWrite a.buf a.n b, a.h, a.n + 1⟩ (by simp; omega)
      simp only [bufBytes_bufWrite a.buf hn b, List.append_assoc, List.singleton_append] at h'
      exact h'

/-- Which bytes of BUF the loop writes: those at (n + j) mod 64 for a byte number j; the others stay (R63, R121). -/
theorem accumLoop_buf_frame (alg : Alg) (a : Accum) (hn : a.n < 64) (x : List Byte) (i : Nat) (hi : i < 64)
    (h : ∀ j < x.length, (a.n + j) % 64 ≠ i) : bufRead (accumLoop alg a x).buf i = bufRead a.buf i := by
  induction x generalizing a with
  | nil => rfl
  | cons b x ih =>
    have h0 := h 0 (by simp)
    have hw : bufRead (bufWrite a.buf a.n b) i = bufRead a.buf i := by
      rw [bufRead_bufWrite, if_neg (by omega)]
    rw [accumLoop_cons]
    by_cases e : a.n + 1 = 64
    · rw [accumByte_full alg a b e, ih _ (show 0 < 64 by decide), hw]
      intro j hj
      have := h (j + 1) (by simpa using hj)
      simp only; omega
    · rw [accumByte_partial alg a b e, ih _ (by simp; omega), hw]
      intro j hj
      have := h (j + 1) (by simpa using hj)
      simp only; omega

/-- Under MD5, H[4..7] stay as they are (R23). -/
theorem accumLoop_high (alg : Alg) (a : Accum) (hn : a.n < 64) (x : List Byte) {k : Nat} (hk : k < 8)
    (hw : stateWords alg ≤ k) : (accumLoop alg a x).h[k] = a.h[k] := by
  rw [(accumLoop_blocks alg a hn x).1, foldBlocks_high alg a.h _ hk hw]

end Sys2Proof.Machine
end

