-- ==== Sys2Proof/Laws/Assembler.lean ====
section
/-! SUPPORT. How the assembler reads hex text (R89), said once. -/

namespace Sys2Proof.Machine

/-- The character of a hex digit (R262). -/
def digitChar (v : Nat) : Char := Char.ofNat (hexDigit v).toNat

/-- A digit's character reads back as the digit, and is no blank. -/
theorem hexDigitValue_digitChar : ∀ v < 16, hexDigitValue (digitChar v) = some v ∧ isBlank (digitChar v) = false := by decide

/-- The hex text of a byte sequence as characters. -/
theorem hex_map_char (x : List Byte) :
    (hex x).map (fun b => Char.ofNat b.toNat) = x.flatMap fun b => [digitChar (b.toNat / 16), digitChar (b.toNat % 16)] := by
  induction x with
  | nil => rfl
  | cons b x ih => simp only [hex, List.flatMap_cons, List.map_append] at ih ⊢; rw [ih]; rfl

/-- The digits read from hex text are those written. -/
theorem hexRun_text (x : List Byte) :
    hexRun (x.flatMap fun b => [digitChar (b.toNat / 16), digitChar (b.toNat % 16)]) =
      (x.flatMap fun b => [b.toNat / 16, b.toNat % 16], []) := by
  induction x with
  | nil => rfl
  | cons b x ih =>
    have hb := b.isLt
    have h1 := hexDigitValue_digitChar (b.toNat / 16) (by omega)
    have h2 := hexDigitValue_digitChar (b.toNat % 16) (by omega)
    simp only [List.flatMap_cons, List.cons_append, List.nil_append, hexRun, h1, h2, ih, Bool.false_eq_true, if_false]

/-- The bytes of the digits of a byte sequence are that sequence. -/
theorem bytesOfDigits_text (x : List Byte) : bytesOfDigits (x.flatMap fun b => [b.toNat / 16, b.toNat % 16]) = some x := by
  induction x with
  | nil => rfl
  | cons b x ih =>
    simp only [List.flatMap_cons, List.cons_append, List.nil_append, bytesOfDigits, ih, Option.map_some]
    congr 2
    apply BitVec.eq_of_toNat_eq
    have hb := b.isLt
    simp; omega

end Sys2Proof.Machine
end

