-- ==== Sys2Proof/Laws/Decode.lean ====
section
/-! SUPPORT. What the header fields, taking payload bytes and the decoder do, said once. -/

namespace Sys2Proof

theorem makeHeader_toNat (op p : BitVec 8) (n : Nat) :
    (makeHeader op p n).toNat = op.toNat * 2 ^ 24 + p.toNat * 2 ^ 16 + n % 2 ^ 16 := by
  have hn := Nat.mod_lt n (show 0 < 2 ^ 16 by decide)
  have hp := p.isLt
  simp only [makeHeader, BitVec.toNat_append, BitVec.toNat_ofNat]
  rw [← Nat.shiftLeft_add_eq_or_of_lt hp, ← Nat.shiftLeft_add_eq_or_of_lt hn]
  simp only [Nat.shiftLeft_eq]
  omega

theorem headerOp_toNat (hdr : BitVec 32) : (headerOp hdr).toNat = hdr.toNat / 2 ^ 24 := by
  have := hdr.isLt
  simp only [headerOp, BitVec.extractLsb'_toNat, Nat.shiftRight_eq_div_pow]
  omega

theorem headerP_toNat (hdr : BitVec 32) : (headerP hdr).toNat = hdr.toNat / 2 ^ 16 % 2 ^ 8 := by
  simp [headerP, BitVec.extractLsb'_toNat, Nat.shiftRight_eq_div_pow]

theorem headerN_eq_mod (hdr : BitVec 32) : headerN hdr = hdr.toNat % 2 ^ 16 := by
  simp [headerN, BitVec.extractLsb'_toNat]

theorem headerN_lt (hdr : BitVec 32) : headerN hdr < 2 ^ 16 := by
  rw [headerN_eq_mod]; omega

@[simp] theorem headerOp_makeHeader (op p : BitVec 8) (n : Nat) : headerOp (makeHeader op p n) = op := by
  have := op.isLt
  have := p.isLt
  apply BitVec.eq_of_toNat_eq
  rw [headerOp_toNat, makeHeader_toNat]
  omega

@[simp] theorem headerP_makeHeader (op p : BitVec 8) (n : Nat) : headerP (makeHeader op p n) = p := by
  have := p.isLt
  apply BitVec.eq_of_toNat_eq
  rw [headerP_toNat, makeHeader_toNat]
  omega

theorem headerN_makeHeader (op p : BitVec 8) (n : Nat) : headerN (makeHeader op p n) = n % 2 ^ 16 := by
  have := p.isLt
  rw [headerN_eq_mod, makeHeader_toNat]
  omega

theorem makeHeader_fields (hdr : BitVec 32) : makeHeader (headerOp hdr) (headerP hdr) (headerN hdr) = hdr := by
  apply BitVec.eq_of_toNat_eq
  rw [makeHeader_toNat, headerOp_toNat, headerP_toNat, headerN_eq_mod]
  omega

/-- Taking as many bytes as stand in front takes exactly these. -/
@[simp] theorem takeBytes_all (bs : List Byte) (rest : List PortItem) :
    takeBytes (bs.map .byte ++ rest) bs.length = .got bs rest := by
  induction bs with
  | nil => cases rest <;> simp [takeBytes]
  | cons b bs ih => simp [takeBytes, ih, Taken.after]

/-- With fewer bytes than asked for and nothing behind them, the answer is to wait. -/
theorem takeBytes_short (bs : List Byte) (n : Nat) (h : bs.length < n) :
    takeBytes (bs.map .byte) n = .short := by
  induction bs generalizing n with
  | nil => obtain ⟨m, rfl⟩ : ∃ m, n = m + 1 := ⟨n - 1, by simp at h; omega⟩; rfl
  | cons b bs ih =>
    obtain ⟨m, rfl⟩ : ∃ m, n = m + 1 := ⟨n - 1, by simp at h; omega⟩
    simp [takeBytes, ih m (by simpa using h), Taken.after]

/-- A reset event before the last byte asked for. -/
theorem takeBytes_reset (bs : List Byte) (n : Nat) (rest : List PortItem) (h : bs.length < n) :
    takeBytes (bs.map .byte ++ .reset :: rest) n = .resetInside := by
  induction bs generalizing n with
  | nil => obtain ⟨m, rfl⟩ : ∃ m, n = m + 1 := ⟨n - 1, by simp at h; omega⟩; rfl
  | cons b bs ih =>
    obtain ⟨m, rfl⟩ : ∃ m, n = m + 1 := ⟨n - 1, by simp at h; omega⟩
    simp [takeBytes, ih m (by simpa using h), Taken.after]

/-- A complete pair (hdr, payload) in front of the port decodes by its OP alone (R83). -/
theorem decode_pair (hdr : BitVec 32) (payload : List Byte) (rest : List PortItem) (h : payload.length = headerN hdr) :
    decode (.header hdr :: (payload.map .byte ++ rest)) =
      match decodeCommand hdr payload with
      | some i => .command i rest
      | none => .reservedOpcode (headerOp hdr) rest := by
  cases hc : decodeCommand hdr payload <;> simp only [decode, decodeHeader, ← h, takeBytes_all, hc]

/-- The commands a header and a payload can decode to: the header's OP and P, and the payload, are the command's. -/
theorem decodeCommand_fields {hdr : BitVec 32} {payload : List Byte} {i : Instr} (h : decodeCommand hdr payload = some i) :
    i.op = headerOp hdr ∧ i.p = headerP hdr ∧ i.payload = payload := by
  simp only [decodeCommand, Option.map_eq_some_iff] at h
  obtain ⟨r, hr, rfl⟩ := h
  have hop : r.op = headerOp hdr := by simpa using List.find?_some hr
  have hm := List.mem_of_find?_eq_some hr
  rw [← hop]
  simp only [opcodeTable, List.mem_cons, List.not_mem_nil, or_false] at hm
  rcases hm with rfl | rfl | rfl | rfl | rfl | rfl | rfl | rfl | rfl | rfl <;> exact ⟨rfl, rfl, rfl⟩

/-- No command for a reserved opcode, and for no other (R84). -/
theorem decodeCommand_none_iff (hdr : BitVec 32) (payload : List Byte) :
    decodeCommand hdr payload = none ↔ headerOp hdr = 0x00 ∨ 0x0B ≤ headerOp hdr := by
  simp only [decodeCommand, Option.map_eq_none_iff]
  generalize headerOp hdr = op
  revert op
  decide

end Sys2Proof
end

