-- ==== Sys2Proof/Laws/Operands.lean ====
section
/-! SUPPORT. Byte and word packing, the digest's bytes and the hex text, said once. -/

namespace Sys2Proof.Machine

theorem byteOf_eq {w : Nat} (v : BitVec w) (k : Nat) : byteOf v k = BitVec.ofNat 8 (v.toNat / 256 ^ k) := by
  apply BitVec.eq_of_toNat_eq
  simp [byteOf, Nat.shiftRight_eq_div_pow, Nat.pow_mul]

theorem wordOfBytes_toNat (a b c d : Byte) :
    (wordOfBytes a b c d).toNat = a.toNat * 2 ^ 24 + b.toNat * 2 ^ 16 + c.toNat * 2 ^ 8 + d.toNat := by
  have hb := b.isLt
  have hc := c.isLt
  have hd := d.isLt
  simp only [wordOfBytes, BitVec.toNat_append]
  rw [← Nat.shiftLeft_add_eq_or_of_lt hb, ← Nat.shiftLeft_add_eq_or_of_lt hc, ← Nat.shiftLeft_add_eq_or_of_lt hd]
  simp only [Nat.shiftLeft_eq]
  omega

/-- The bytes of a word put together from bytes (R11). -/
theorem byteOf_wordOfBytes (a b c d : Byte) :
    byteOf (wordOfBytes a b c d) 0 = d ∧ byteOf (wordOfBytes a b c d) 1 = c ∧
      byteOf (wordOfBytes a b c d) 2 = b ∧ byteOf (wordOfBytes a b c d) 3 = a := by
  have ha := a.isLt
  have hb := b.isLt
  have hc := c.isLt
  have hd := d.isLt
  refine ⟨?_, ?_, ?_, ?_⟩ <;>
    · apply BitVec.eq_of_toNat_eq
      rw [byteOf_eq, wordOfBytes_toNat, BitVec.toNat_ofNat]
      omega

theorem le32bytes_le32 (x : List Byte) (k : Nat) :
    le32bytes (le32 x k) = [byteAt x (4 * k), byteAt x (4 * k + 1), byteAt x (4 * k + 2), byteAt x (4 * k + 3)] := by
  simp [le32bytes, le32, byteOf_wordOfBytes]

theorem be32bytes_be32 (x : List Byte) (k : Nat) :
    be32bytes (be32 x k) = [byteAt x (4 * k), byteAt x (4 * k + 1), byteAt x (4 * k + 2), byteAt x (4 * k + 3)] := by
  simp [be32bytes, be32, byteOf_wordOfBytes]

/-- The register file as the list of its eight words. -/
theorem hash_toList (h : Vector Word 8) : h.toList = [h[0], h[1], h[2], h[3], h[4], h[5], h[6], h[7]] := by
  apply List.ext_getElem
  · simp
  · intro i h1 h2
    simp at h1
    interval_cases i <;> simp

theorem writeHash_toList (n : Nat) (f : Nat → Word) (h : Vector Word 8) (hn : n ≤ 8) :
    (writeHash n f h).toList = (List.range n).map f ++ h.toList.drop n := by
  apply List.ext_getElem
  · simp; omega
  · intro k h1 h2
    simp at h1
    rw [Vector.getElem_toList, writeHash_get _ _ _ _ h1]
    split
    · rename_i hk
      rw [List.getElem_append_left (by simpa using hk)]; simp
    · rename_i hk
      rw [List.getElem_append_right (by simpa using hk)]; simp; congr 1; omega

theorem serialize_md5 (h : Vector Word 8) :
    serialize .md5 h = le32bytes h[0] ++ le32bytes h[1] ++ le32bytes h[2] ++ le32bytes h[3] := by
  simp [serialize, hash_toList, stateWords, bytes32]

theorem serialize_sha256 (h : Vector Word 8) :
    serialize .sha256 h = be32bytes h[0] ++ be32bytes h[1] ++ be32bytes h[2] ++ be32bytes h[3] ++
      be32bytes h[4] ++ be32bytes h[5] ++ be32bytes h[6] ++ be32bytes h[7] := by
  simp [serialize, hash_toList, stateWords, bytes32]

@[simp] theorem serialize_length (alg : Alg) (h : Vector Word 8) : (serialize alg h).length = 4 * stateWords alg := by
  cases alg <;> simp [serialize_md5, serialize_sha256, stateWords, le32bytes, be32bytes]

/-- The digest depends on H[0..W-1] only. -/
theorem serialize_congr {alg : Alg} {h g : Vector Word 8}
    (e : ∀ (k : Nat) (hk : k < 8), k < stateWords alg → h[k] = g[k]) : serialize alg h = serialize alg g := by
  cases alg with
  | md5 =>
    rw [serialize_md5, serialize_md5, e 0 (by decide) (by decide), e 1 (by decide) (by decide), e 2 (by decide) (by decide),
      e 3 (by decide) (by decide)]
  | sha256 => rw [Vector.ext fun i hi => e i hi hi]

@[simp] theorem hex_length (d : List Byte) : (hex d).length = 2 * d.length := by
  induction d with
  | nil => rfl
  | cons b d ih => simp only [hex, List.flatMap_cons, List.length_append] at ih ⊢; simp [ih]; omega

/-- H[0..3] after compressing one block under MD5. -/
theorem md5State_compressHash (h : Vector Word 8) (b : List Byte) :
    md5State (compressHash .md5 h b) = md5Compress (md5State h) b := by
  simp [md5State, compressHash, stateWords, compressWords, Md5Vars.toList]

/-- H[0..7] after compressing one block under SHA-256. -/
theorem shaState_compressHash (h : Vector Word 8) (b : List Byte) :
    shaState (compressHash .sha256 h b) = sha256Compress (shaState h) b := by
  simp [shaState, compressHash, stateWords, compressWords, ShaVars.toList]

theorem padZeros_spec (n : Nat) : (padZeros n + n) % 64 = 55 ∧ padZeros n < 64 := by
  unfold padZeros; omega

@[simp] theorem bytes64_length (alg : Alg) (v : U64) : (bytes64 alg v).length = 8 := by
  cases alg <;> rfl

@[simp] theorem shaScheduleUpTo_length (block : List Byte) (n : Nat) : (shaScheduleUpTo block n).length = 16 + n := by
  induction n with
  | zero => simp [shaScheduleUpTo]
  | succ n ih => simp [shaScheduleUpTo, shaExtend, ih]; omega

/-- Later expansion does not change the words already there (R204). -/
theorem shaScheduleUpTo_stable (block : List Byte) {n m : Nat} (h : n ≤ m) {i : Nat} (hi : i < 16 + n) :
    (shaScheduleUpTo block m)[i]? = (shaScheduleUpTo block n)[i]? := by
  induction m, h using Nat.le_induction with
  | base => rfl
  | succ m hm ih => rw [shaScheduleUpTo, shaExtend, List.getElem?_append_left (by rw [shaScheduleUpTo_length]; omega), ih]

/-- Only the whole blocks of a sequence are folded. -/
theorem foldBlocks_take (alg : Alg) (h : Vector Word 8) (p : List Byte) :
    foldBlocks alg h (p.take (64 * (p.length / 64))) = foldBlocks alg h p := by
  have hl : (p.take (64 * (p.length / 64))).length = 64 * (p.length / 64) := by
    rw [List.length_take, Nat.min_eq_left (Nat.mul_div_le _ _)]
  have := foldBlocks_append_short alg h (p.take (64 * (p.length / 64))) (p.drop (64 * (p.length / 64)))
    ⟨_, hl⟩ (by rw [List.length_drop]; omega)
  rw [← this, List.take_append_drop]

/-- Folding a message's whole blocks and then its padded rest is folding the padded message (R266, R122). -/
theorem foldBlocks_pad_rest (alg : Alg) (h : Vector Word 8) (m : List Byte) (len : U64) :
    foldBlocks alg (foldBlocks alg h m) (pad alg (m.drop (64 * (m.length / 64))) len) = foldBlocks alg h (pad alg m len) := by
  rw [← foldBlocks_take alg h m]
  generalize hn : 64 * (m.length / 64) = n
  have hl : (m.take n).length = n := by rw [List.length_take]; omega
  have hz : padZeros (m.drop n).length = padZeros m.length := by
    rw [List.length_drop]; simp only [padZeros]; omega
  have e : pad alg m len = m.take n ++ pad alg (m.drop n) len := by
    simp only [pad, hz, ← List.append_assoc, List.take_append_drop]
  rw [e, foldBlocks_append _ _ _ _ ⟨m.length / 64, by rw [hl, hn]⟩]

/-- The bytes of LOAD_STATE's words are its payload (R244). -/
theorem bytes32_word32 (alg : Alg) (x : List Byte) (k : Nat) :
    bytes32 alg (word32 alg x k) = [byteAt x (4 * k), byteAt x (4 * k + 1), byteAt x (4 * k + 2), byteAt x (4 * k + 3)] := by
  cases alg
  · exact le32bytes_le32 x k
  · exact be32bytes_be32 x k

end Sys2Proof.Machine
end

