-- ==== Sys2Proof/Laws/PerInstr.lean ====
section
/-! SUPPORT. Facts about every command as syntax, one lemma per constructor. -/

namespace Sys2Proof.Laws.HeaderFields

/-- The header of a command holds its opcode and its P (R81), and the opcode map leads back from header and payload to the
command (R83). -/
def Statement (i : Instr) : Prop :=
  headerOp i.header = i.op ∧ headerP i.header = i.p ∧ decodeCommand i.header i.payload = some i

/-- The three parts from one: the opcode map's answer for the command's own opcode and P. -/
theorem of_table (i : Instr)
    (h : (opcodeTable.find? (fun r => r.op == i.op)).map (fun r => r.build i.p i.payload) = some i) : Statement i :=
  ⟨headerOp_makeHeader _ _ _, headerP_makeHeader _ _ _, by simpa [decodeCommand, Instr.header] using h⟩

theorem init (p : BitVec 8) (payload : List Byte) : Statement (.init p payload) := of_table _ rfl
theorem absorb (p : BitVec 8) (payload : List Byte) : Statement (.absorb p payload) := of_table _ rfl
theorem finalize (p : BitVec 8) (payload : List Byte) : Statement (.finalize p payload) := of_table _ rfl
theorem readDigest (p : BitVec 8) (payload : List Byte) : Statement (.readDigest p payload) := of_table _ rfl
theorem readHex (p : BitVec 8) (payload : List Byte) : Statement (.readHex p payload) := of_table _ rfl
theorem compress (p : BitVec 8) (payload : List Byte) : Statement (.compress p payload) := of_table _ rfl
theorem loadState (p : BitVec 8) (payload : List Byte) : Statement (.loadState p payload) := of_table _ rfl
theorem readState (p : BitVec 8) (payload : List Byte) : Statement (.readState p payload) := of_table _ rfl
theorem readStatus (p : BitVec 8) (payload : List Byte) : Statement (.readStatus p payload) := of_table _ rfl
theorem readLen (p : BitVec 8) (payload : List Byte) : Statement (.readLen p payload) := of_table _ rfl

end Sys2Proof.Laws.HeaderFields
end

