-- ==== Sys2Proof/Laws/State.lean ====
section
/-! SUPPORT. What each update of the state leaves in each field, one lemma per field per update, so that no later proof unfolds a
record update. -/

namespace Sys2Proof.Machine

section respond

@[simp] theorem respond_phase (code : BitVec 8) (data : List Byte) (s : State) :
    (respond code data s).phase = s.phase := rfl
@[simp] theorem respond_alg (code : BitVec 8) (data : List Byte) (s : State) :
    (respond code data s).alg = s.alg := rfl
@[simp] theorem respond_h (code : BitVec 8) (data : List Byte) (s : State) :
    (respond code data s).h = s.h := rfl
@[simp] theorem respond_buf (code : BitVec 8) (data : List Byte) (s : State) :
    (respond code data s).buf = s.buf := rfl
@[simp] theorem respond_bufLen (code : BitVec 8) (data : List Byte) (s : State) :
    (respond code data s).bufLen = s.bufLen := rfl
@[simp] theorem respond_len (code : BitVec 8) (data : List Byte) (s : State) :
    (respond code data s).len = s.len := rfl
@[simp] theorem respond_err (code : BitVec 8) (data : List Byte) (s : State) :
    (respond code data s).err = s.err := rfl
@[simp] theorem respond_ecode (code : BitVec 8) (data : List Byte) (s : State) :
    (respond code data s).ecode = s.ecode := rfl
@[simp] theorem respond_port (code : BitVec 8) (data : List Byte) (s : State) :
    (respond code data s).port = s.port := rfl
@[simp] theorem respond_responses (code : BitVec 8) (data : List Byte) (s : State) :
    (respond code data s).responses = s.responses ++ [⟨code, data⟩] := rfl
@[simp] theorem respond_resets (code : BitVec 8) (data : List Byte) (s : State) :
    (respond code data s).resets = s.resets := rfl

end respond

section raiseError

@[simp] theorem raiseError_phase (c : ErrorCode) (s : State) :
    (raiseError c s).phase = s.phase := rfl
@[simp] theorem raiseError_alg (c : ErrorCode) (s : State) :
    (raiseError c s).alg = s.alg := rfl
@[simp] theorem raiseError_h (c : ErrorCode) (s : State) :
    (raiseError c s).h = s.h := rfl
@[simp] theorem raiseError_buf (c : ErrorCode) (s : State) :
    (raiseError c s).buf = s.buf := rfl
@[simp] theorem raiseError_bufLen (c : ErrorCode) (s : State) :
    (raiseError c s).bufLen = s.bufLen := rfl
@[simp] theorem raiseError_len (c : ErrorCode) (s : State) :
    (raiseError c s).len = s.len := rfl
@[simp] theorem raiseError_err (c : ErrorCode) (s : State) :
    (raiseError c s).err = true := rfl
@[simp] theorem raiseError_ecode (c : ErrorCode) (s : State) :
    (raiseError c s).ecode = c.code := rfl
@[simp] theorem raiseError_port (c : ErrorCode) (s : State) :
    (raiseError c s).port = s.port := rfl
@[simp] theorem raiseError_responses (c : ErrorCode) (s : State) :
    (raiseError c s).responses = s.responses ++ [⟨c.code, []⟩] := rfl
@[simp] theorem raiseError_resets (c : ErrorCode) (s : State) :
    (raiseError c s).resets = s.resets := rfl

end raiseError

section withPort

@[simp] theorem withPort_phase (rest : List PortItem) (s : State) :
    (withPort rest s).phase = s.phase := rfl
@[simp] theorem withPort_alg (rest : List PortItem) (s : State) :
    (withPort rest s).alg = s.alg := rfl
@[simp] theorem withPort_h (rest : List PortItem) (s : State) :
    (withPort rest s).h = s.h := rfl
@[simp] theorem withPort_buf (rest : List PortItem) (s : State) :
    (withPort rest s).buf = s.buf := rfl
@[simp] theorem withPort_bufLen (rest : List PortItem) (s : State) :
    (withPort rest s).bufLen = s.bufLen := rfl
@[simp] theorem withPort_len (rest : List PortItem) (s : State) :
    (withPort rest s).len = s.len := rfl
@[simp] theorem withPort_err (rest : List PortItem) (s : State) :
    (withPort rest s).err = s.err := rfl
@[simp] theorem withPort_ecode (rest : List PortItem) (s : State) :
    (withPort rest s).ecode = s.ecode := rfl
@[simp] theorem withPort_port (rest : List PortItem) (s : State) :
    (withPort rest s).port = rest := rfl
@[simp] theorem withPort_responses (rest : List PortItem) (s : State) :
    (withPort rest s).responses = s.responses := rfl
@[simp] theorem withPort_resets (rest : List PortItem) (s : State) :
    (withPort rest s).resets = s.resets := rfl

end withPort

section applyReset

@[simp] theorem applyReset_phase (s : State) :
    (applyReset s).phase = .uninit := rfl
@[simp] theorem applyReset_alg (s : State) :
    (applyReset s).alg = .md5 := rfl
@[simp] theorem applyReset_h (s : State) :
    (applyReset s).h = Vector.ofFn fun k => Config.resetHash s.resets k.val := rfl
@[simp] theorem applyReset_buf (s : State) :
    (applyReset s).buf = Vector.ofFn fun k => Config.resetBuf s.resets k.val := rfl
@[simp] theorem applyReset_bufLen (s : State) :
    (applyReset s).bufLen = 0 := rfl
@[simp] theorem applyReset_len (s : State) :
    (applyReset s).len = 0 := rfl
@[simp] theorem applyReset_err (s : State) :
    (applyReset s).err = false := rfl
@[simp] theorem applyReset_ecode (s : State) :
    (applyReset s).ecode = 0 := rfl
@[simp] theorem applyReset_port (s : State) :
    (applyReset s).port = s.port := rfl
@[simp] theorem applyReset_responses (s : State) :
    (applyReset s).responses = s.responses := rfl
@[simp] theorem applyReset_resets (s : State) :
    (applyReset s).resets = s.resets + 1 := rfl

end applyReset

section initEffect

@[simp] theorem initEffect_phase (p : BitVec 8) (s : State) :
    (initEffect p s).phase = .active := rfl
@[simp] theorem initEffect_alg (p : BitVec 8) (s : State) :
    (initEffect p s).alg = algOfBit (p.getLsbD 0) := rfl
@[simp] theorem initEffect_h (p : BitVec 8) (s : State) :
    (initEffect p s).h = writeHash (stateWords (algOfBit (p.getLsbD 0))) (ivWord (algOfBit (p.getLsbD 0))) s.h := rfl
@[simp] theorem initEffect_buf (p : BitVec 8) (s : State) :
    (initEffect p s).buf = s.buf := rfl
@[simp] theorem initEffect_bufLen (p : BitVec 8) (s : State) :
    (initEffect p s).bufLen = 0 := rfl
@[simp] theorem initEffect_len (p : BitVec 8) (s : State) :
    (initEffect p s).len = 0 := rfl
@[simp] theorem initEffect_err (p : BitVec 8) (s : State) :
    (initEffect p s).err = false := rfl
@[simp] theorem initEffect_ecode (p : BitVec 8) (s : State) :
    (initEffect p s).ecode = 0 := rfl
@[simp] theorem initEffect_port (p : BitVec 8) (s : State) :
    (initEffect p s).port = s.port := rfl
@[simp] theorem initEffect_responses (p : BitVec 8) (s : State) :
    (initEffect p s).responses = s.responses ++ [⟨okCode, []⟩] := rfl
@[simp] theorem initEffect_resets (p : BitVec 8) (s : State) :
    (initEffect p s).resets = s.resets := rfl

end initEffect

section accumulate

@[simp] theorem accumulate_phase (bytes : List Byte) (s : State) :
    (accumulate bytes s).phase = s.phase := rfl
@[simp] theorem accumulate_alg (bytes : List Byte) (s : State) :
    (accumulate bytes s).alg = s.alg := rfl
@[simp] theorem accumulate_h (bytes : List Byte) (s : State) :
    (accumulate bytes s).h = (accumLoop s.alg ⟨s.buf, s.h, s.bufLen.toNat⟩ bytes).h := rfl
@[simp] theorem accumulate_buf (bytes : List Byte) (s : State) :
    (accumulate bytes s).buf = (accumLoop s.alg ⟨s.buf, s.h, s.bufLen.toNat⟩ bytes).buf := rfl
@[simp] theorem accumulate_bufLen (bytes : List Byte) (s : State) :
    (accumulate bytes s).bufLen = BitVec.ofNat 6 (accumLoop s.alg ⟨s.buf, s.h, s.bufLen.toNat⟩ bytes).n := rfl
@[simp] theorem accumulate_len (bytes : List Byte) (s : State) :
    (accumulate bytes s).len = s.len + BitVec.ofNat 64 bytes.length := rfl
@[simp] theorem accumulate_err (bytes : List Byte) (s : State) :
    (accumulate bytes s).err = s.err := rfl
@[simp] theorem accumulate_ecode (bytes : List Byte) (s : State) :
    (accumulate bytes s).ecode = s.ecode := rfl
@[simp] theorem accumulate_port (bytes : List Byte) (s : State) :
    (accumulate bytes s).port = s.port := rfl
@[simp] theorem accumulate_responses (bytes : List Byte) (s : State) :
    (accumulate bytes s).responses = s.responses := rfl
@[simp] theorem accumulate_resets (bytes : List Byte) (s : State) :
    (accumulate bytes s).resets = s.resets := rfl

end accumulate

section finalizeEffect

@[simp] theorem finalizeEffect_phase (s : State) :
    (finalizeEffect s).phase = .final := rfl
@[simp] theorem finalizeEffect_alg (s : State) :
    (finalizeEffect s).alg = s.alg := rfl
@[simp] theorem finalizeEffect_h (s : State) :
    (finalizeEffect s).h = foldBlocks s.alg s.h (pad s.alg (bufBytes s.buf s.bufLen.toNat) s.len) := rfl
@[simp] theorem finalizeEffect_buf (s : State) :
    (finalizeEffect s).buf = s.buf := rfl
@[simp] theorem finalizeEffect_bufLen (s : State) :
    (finalizeEffect s).bufLen = 0 := rfl
@[simp] theorem finalizeEffect_len (s : State) :
    (finalizeEffect s).len = s.len := rfl
@[simp] theorem finalizeEffect_err (s : State) :
    (finalizeEffect s).err = s.err := rfl
@[simp] theorem finalizeEffect_ecode (s : State) :
    (finalizeEffect s).ecode = s.ecode := rfl
@[simp] theorem finalizeEffect_port (s : State) :
    (finalizeEffect s).port = s.port := rfl
@[simp] theorem finalizeEffect_responses (s : State) :
    (finalizeEffect s).responses = s.responses := rfl
@[simp] theorem finalizeEffect_resets (s : State) :
    (finalizeEffect s).resets = s.resets := rfl

end finalizeEffect

end Sys2Proof.Machine
end

