-- ==== Sys2Proof/Laws/Step.lean ====
section
/-! SUPPORT. What executing a command and a step can do, said once; later proofs split on these cases and do not unfold `exec`
or `step`. -/

namespace Sys2Proof.Machine

/-- What a command does when its check passes. -/
def effectOf : Instr → State → State
  | .init p _, s => initEffect p s
  | .absorb _ payload, s => respond okCode [] (accumulate payload s)
  | .finalize _ _, s => respond okCode [] (finalizeEffect s)
  | .readDigest _ _, s => respond okCode (serialize s.alg s.h) s
  | .readHex _ _, s => respond okCode (hex (serialize s.alg s.h)) s
  | .compress _ payload, s => respond okCode [] { s with h := compressHash s.alg s.h payload }
  | .loadState _ payload, s =>
    respond okCode [] { s with h := writeHash (stateWords s.alg) (word32 s.alg payload) s.h }
  | .readState _ _, s => respond okCode (serialize s.alg s.h) s
  | .readStatus _ _, s => respond okCode (le32bytes (statusWord s)) s
  | .readLen _ _, s => respond okCode (le64bytes s.len) s

/-- Every command is its check, then the error procedure or its effect (R87). -/
theorem exec_eq (i : Instr) (s : State) :
    exec i s = .next (match check i.op i.p i.payload.length s with
      | some c => raiseError c s
      | none => effectOf i s) := by
  cases i <;> simp only [exec, execInit, execAbsorb, execFinalize, execReadDigest, execReadHex, execCompress, execLoadState,
    execReadState, execReadStatus, execReadLen, runCommand, Instr.op, Instr.p, Instr.payload, effectOf] <;>
    generalize check _ _ _ s = c <;> cases c <;> rfl

theorem exec_of_check_some {i : Instr} {s : State} {c : ErrorCode} (h : check i.op i.p i.payload.length s = some c) :
    exec i s = .next (raiseError c s) := by
  rw [exec_eq, h]

theorem exec_of_check_none {i : Instr} {s : State} (h : check i.op i.p i.payload.length s = none) :
    exec i s = .next (effectOf i s) := by
  rw [exec_eq, h]

/-- The two things a command can come to (R308). -/
theorem exec_cases {i : Instr} {s t : State} (h : exec i s = .next t) :
    (∃ c, check i.op i.p i.payload.length s = some c ∧ t = raiseError c s) ∨
      (check i.op i.p i.payload.length s = none ∧ t = effectOf i s) := by
  rw [exec_eq] at h
  cases hc : check i.op i.p i.payload.length s with
  | some c => left; refine ⟨c, rfl, ?_⟩; rw [hc] at h; injection h with h; exact h.symm
  | none => right; refine ⟨rfl, ?_⟩; rw [hc] at h; injection h with h; exact h.symm

/-- What a step that answers a next state can be (R87, R315, R340, R353). -/
theorem step_cases {s t : State} (h : step s = .next t) :
    (∃ i rest, decode s.port = .command i rest ∧ exec i (withPort rest s) = .next t) ∨
      (∃ op rest, decode s.port = .reservedOpcode op rest ∧ t = raiseError .badCmd (withPort rest s)) ∨
      (∃ rest, decode s.port = .resetEvent rest ∧ t = applyReset (withPort rest s)) ∨
      ((decode s.port = .idle ∨ decode s.port = .waiting) ∧ t = s) := by
  unfold step at h
  cases hd : decode s.port <;> simp only [hd, rejectReserved] at h
  case command i rest => exact .inl ⟨i, rest, rfl, h⟩
  case reservedOpcode op rest => injection h with h; exact .inr (.inl ⟨op, rest, rfl, h.symm⟩)
  case resetEvent rest => injection h with h; exact .inr (.inr (.inl ⟨rest, rfl, h.symm⟩))
  case idle => injection h with h; exact .inr (.inr (.inr ⟨.inl rfl, h.symm⟩))
  case waiting => injection h with h; exact .inr (.inr (.inr ⟨.inr rfl, h.symm⟩))
  case resetInsideCommand => cases h

/-- The step of a port that begins with a decodable command (R87). -/
theorem step_of_command {s : State} {i : Instr} {rest : List PortItem} (h : decode s.port = .command i rest) :
    step s = exec i (withPort rest s) := by
  simp only [step, h]

/-- A command neither reads nor changes the port. -/
theorem exec_withPort (i : Instr) (s t : State) (p q : List PortItem) (h : exec i (withPort p s) = .next t) :
    exec i (withPort q s) = .next (withPort q t) := by
  rw [exec_eq] at h ⊢
  injection h with h
  subst h
  have e : check i.op i.p i.payload.length (withPort q s) = check i.op i.p i.payload.length (withPort p s) := rfl
  rw [e]
  cases check i.op i.p i.payload.length (withPort p s) with
  | some c => rfl
  | none => cases i <;> rfl

/-- Every command answers a next state, with one response more and the port as it is (R86). -/
theorem exec_next (i : Instr) (s : State) :
    ∃ t, exec i s = .next t ∧ t.port = s.port ∧ t.responses.length = s.responses.length + 1 := by
  rw [exec_eq]
  refine ⟨_, rfl, ?_⟩
  cases check i.op i.p i.payload.length s <;> cases i <;> simp [effectOf]

/-- Which opcodes can pass the check in each phase (R306). -/
theorem check_none_phase {i : Instr} {s : State} (h : check i.op i.p i.payload.length s = none) :
    (s.phase = .uninit → i.op = 0x01 ∨ i.op = 0x09 ∨ i.op = 0x0A) ∧
      (s.phase = .final → i.op = 0x01 ∨ i.op = 0x04 ∨ i.op = 0x05 ∨ i.op = 0x08 ∨ i.op = 0x09 ∨ i.op = 0x0A) ∧
      (s.phase = .active → i.op ≠ 0x04 ∧ i.op ≠ 0x05) := by
  refine ⟨?_, ?_, ?_⟩ <;> intro hp <;> cases i <;> simp_all [check, Instr.op] <;> (split at h <;> cases h)

/-- The check reads PHASE and ALG only. -/
theorem check_congr {s t : State} (h : s.phase = t.phase) (ha : s.alg = t.alg) (op p : BitVec 8) (n : Nat) :
    check op p n s = check op p n t := by
  simp only [check, h, ha]

/-- An error's code is one of R300, and not OK. -/
theorem errorCode_bounds (c : ErrorCode) : c.code ≠ 0x00 ∧ c.code ≤ 0x05 := by cases c <;> decide

/-- INIT with a legal P and no payload succeeds in every phase (R100). -/
theorem exec_init_ok (alg : Alg) (s : State) :
    exec (.init (algParam alg) []) s = .next (initEffect (algParam alg) s) := by
  rw [exec_of_check_none]; rfl
  cases alg <;> simp [check, Instr.op, Instr.p, Instr.payload, algParam, lengthAllowed]

/-- ABSORB succeeds in ACTIVE, whatever its payload (R120, R125). -/
theorem exec_absorb_ok (x : List Byte) {s : State} (h : s.phase = .active) :
    exec (.absorb 0 x) s = .next (respond okCode [] (accumulate x s)) := by
  rw [exec_of_check_none]; rfl
  simp [check, Instr.op, Instr.p, lengthAllowed, h]

/-- FINALIZE with no payload succeeds in ACTIVE (R265). -/
theorem exec_finalize_ok {s : State} (h : s.phase = .active) :
    exec (.finalize 0 []) s = .next (respond okCode [] (finalizeEffect s)) := by
  rw [exec_of_check_none]; rfl
  simp [check, Instr.op, Instr.p, Instr.payload, lengthAllowed, h]

/-- READ_DIGEST with no payload succeeds in FINAL (R270). -/
theorem exec_readDigest_ok {s : State} (h : s.phase = .final) :
    exec (.readDigest 0 []) s = .next (respond okCode (serialize s.alg s.h) s) := by
  rw [exec_of_check_none]; rfl
  simp [check, Instr.op, Instr.p, Instr.payload, lengthAllowed, h]

/-- READ_HEX with no payload succeeds in FINAL (R274). -/
theorem exec_readHex_ok {s : State} (h : s.phase = .final) :
    exec (.readHex 0 []) s = .next (respond okCode (hex (serialize s.alg s.h)) s) := by
  rw [exec_of_check_none]; rfl
  simp [check, Instr.op, Instr.p, Instr.payload, lengthAllowed, h]

/-- A sequence of commands run after another. -/
theorem execAll_append {a : List Instr} {s t : State} (h : execAll a s = .next t) (b : List Instr) :
    execAll (a ++ b) s = execAll b t := by
  induction a generalizing s with
  | nil => cases h; rfl
  | cons i a ih =>
    simp only [List.cons_append, execAll] at h ⊢
    cases he : exec i s with
    | next u => rw [he] at h; exact ih h
    | fault r => rw [he] at h; cases h
    | refused r => rw [he] at h; cases h

/-- The opcode map leads back from a command's own header to the command (R83). -/
theorem decodeCommand_header (i : Instr) : decodeCommand i.header i.payload = some i := by
  cases i
  · exact (Laws.HeaderFields.init _ _).2.2
  · exact (Laws.HeaderFields.absorb _ _).2.2
  · exact (Laws.HeaderFields.finalize _ _).2.2
  · exact (Laws.HeaderFields.readDigest _ _).2.2
  · exact (Laws.HeaderFields.readHex _ _).2.2
  · exact (Laws.HeaderFields.compress _ _).2.2
  · exact (Laws.HeaderFields.loadState _ _).2.2
  · exact (Laws.HeaderFields.readState _ _).2.2
  · exact (Laws.HeaderFields.readStatus _ _).2.2
  · exact (Laws.HeaderFields.readLen _ _).2.2

/-- N of a well-formed command's header is its payload's length (R80). -/
theorem headerN_header {i : Instr} (h : i.wellFormed = true) : headerN i.header = i.payload.length := by
  have : i.payload.length ≤ 65535 := by simpa [Instr.wellFormed, Config.maxPayload] using h
  rw [Instr.header, headerN_makeHeader]
  omega

@[simp] theorem run_zero (s : State) : Host.Core.run core 0 s = .next s := rfl

/-- One step more of a run. -/
theorem run_succ (k : Nat) (s : State) :
    Host.Core.run core (k + 1) s =
      match step s with
      | .next t => Host.Core.run core k t
      | .fault r => .fault r
      | .refused r => .refused r := by
  refine (Host.Core.run.eq_2 core s k).trans ?_
  cases h : step s <;> simp [core, h]

end Sys2Proof.Machine
end

