-- ==== Sys2Proof/Tests/Slice0.lean ====
section
/-! SUPPORT. Tests, each on one step from a small state, and one witness for every statement with hypotheses. Expected values are
those of spec/95_test_vectors.md (E<n>, V<n>) or of the rule named; none is the model's own answer. -/

namespace Sys2Proof.Tests

open Sys2Proof Sys2Proof.Machine

/-- The state a result holds, the reset state where it holds none. -/
def stateOf : Result → State
  | .next t => t
  | .fault _ => State.reset
  | .refused _ => State.reset

/-- The state after the commands, from reset. -/
def after (is : List Instr) : State := stateOf (execAll is State.reset)

/-- "md5" and "sha" of 95_test_vectors.md section 3. -/
def started (alg : Alg) : State := after [.init (algParam alg) []]

/-- "md5/abc" and "sha/abc". -/
def fed (alg : Alg) : State := after [.init (algParam alg) [], .absorb 0 [0x61, 0x62, 0x63]]

/-- A state in the given phase, with n bytes of 0x61 fed to it and none compressed. -/
def small (ph : Phase) (alg : Alg) (n : Nat) : State :=
  { State.reset with
    phase := ph
    alg := alg
    h := Vector.ofFn fun k => BitVec.ofNat 32 (0x01010101 * (k.val + 1))
    buf := Vector.replicate 64 0x61
    bufLen := BitVec.ofNat 6 n
    len := BitVec.ofNat 64 n }

/-- What a command comes to: its response, STATUS, LEN and H. -/
def outcome (i : Instr) (s : State) : Option Response × Word × U64 × List Word :=
  let t := stateOf (exec i s)
  (t.responses.getLast?, statusWord t, t.len, t.h.toList)

/-- "md5/fin": H as E25 gives it. -/
def finishedMd5 : State :=
  { fed .md5 with
    phase := .final, bufLen := 0
    h := #v[0x98500190, 0xb04fd23c, 0x7d3f96d6, 0x727fe128, 0, 0, 0, 0] }

/-! ### WellFormed, decoding, encoding -/

theorem test_wellFormed_refuses_payload_of_65536 (p : BitVec 8) (b : Byte) :
    (Instr.absorb p (List.replicate 65536 b)).wellFormed = false := by
  simp only [Instr.wellFormed, Instr.payload, List.length_replicate]; decide

theorem test_wellFormed_accepts_payload_of_65535 (p : BitVec 8) (b : Byte) :
    (Instr.absorb p (List.replicate 65535 b)).wellFormed = true := by
  simp only [Instr.wellFormed, Instr.payload, List.length_replicate]; decide

/-- R84, R85: OP in bits 31:24, P in bits 23:16, N in bits 15:0; one word of each row of the opcode map. -/
theorem test_decode_init : decode [.header 0b00000001000000010000000000000000#32] = .command (.init 1 []) [] := by decide

theorem test_decode_absorb :
    decode [.header 0b00000010000000000000000000000010#32, .byte 0x80, .byte 0x00] = .command (.absorb 0 [0x80, 0x00]) [] := by decide

theorem test_decode_finalize : decode [.header 0b00000011000000000000000000000000#32] = .command (.finalize 0 []) [] := by decide

theorem test_decode_readDigest : decode [.header 0b00000100000000000000000000000000#32] = .command (.readDigest 0 []) [] := by decide

theorem test_decode_readHex : decode [.header 0b00000101100000000000000000000000#32] = .command (.readHex 0x80 []) [] := by decide

theorem test_decode_compress :
    decode (.header 0b00000110000000000000000001000000#32 :: List.replicate 64 (.byte 0xff)) =
      .command (.compress 0 (List.replicate 64 0xff)) [] := by decide +kernel

theorem test_decode_loadState :
    decode (.header 0b00000111000000000000000000010000#32 :: List.replicate 17 (.byte 0x01)) =
      .command (.loadState 0 (List.replicate 16 0x01)) [.byte 0x01] := by decide

theorem test_decode_readState : decode [.header 0b00001000000000000000000000000000#32] = .command (.readState 0 []) [] := by decide

theorem test_decode_readStatus :
    decode [.header 0b00001001000000000000000000000001#32, .byte 0x00] = .command (.readStatus 0 [0x00]) [] := by decide

theorem test_decode_readLen :
    decode [.header 0b00001010000000000000000000000000#32, .reset] = .command (.readLen 0 []) [.reset] := by decide

/-- R82, R84: a reserved OP is framed by its N like any other. -/
theorem test_decode_reserved :
    decode [.header 0x0B000001, .byte 0x07, .header 0x09000000] = .reservedOpcode 0x0B [.header 0x09000000] := by decide

/-- R89: `COMPRESS` encodes hdr 0x06000040. -/
theorem test_encode_compress :
    encode (.compress 0 (List.replicate 64 0)) = .header 0x06000040 :: List.replicate 64 (.byte 0x00) := by decide

/-- R83: no two rows of the opcode map share an OP. -/
theorem test_opcodes_distinct : (opcodeTable.map (·.op)).Nodup := by decide

theorem test_decodeTableWord :
    decodeTableWord 32 0x02000002 = some (.absorb 0 [0, 0]) ∧ decodeTableWord 32 0x0A000000 = some (.readLen 0 []) ∧
      decodeTableWord 32 0x0B000000 = none := by decide

/-- The first step after reset runs the word given to withFetchWord (E3). -/
theorem test_withFetchWord_runs :
    statusWord (stateOf (step (State.reset.withFetchWord 32 0x01000000))) = 0x00000001 := by decide

/-! ### The step -/

/-- E9: a reserved opcode answers E_BADCMD. -/
theorem test_step_reserved :
    let t := stateOf (step { State.reset with port := [.header 0xFF000000] })
    t.responses = [⟨0x01, []⟩] ∧ statusWord t = 0x00010008 ∧ t.port = [] := by decide

/-- R340: reset answers nothing and sets the reset values. -/
theorem test_step_reset :
    let t := stateOf (step { small .active .sha256 5 with port := [.reset, .header 0x09000000] })
    t.responses = [] ∧ statusWord t = 0 ∧ t.len = 0 ∧ t.port = [.header 0x09000000] := by decide

/-- R353: one payload byte of two has arrived. -/
theorem test_step_waits :
    let s := { small .active .md5 0 with port := [.header 0x02000002, .byte 0x61] }
    step s = .next s := rfl

/-- I12: reset between the header and the payload. -/
theorem test_step_reset_inside :
    step { State.reset with port := [.header 0x02000002, .byte 0x61, .reset] } = .refused .resetInsideCommand := rfl

/-! ### INIT, READ_STATUS, READ_LEN -/

/-- E4. -/
theorem test_init_sha256 : outcome (.init 1 []) State.reset =
    (some ⟨0x00, []⟩, 0x00000005, 0, [0x6a09e667, 0xbb67ae85, 0x3c6ef372, 0xa54ff53a, 0x510e527f, 0x9b05688c, 0x1f83d9ab, 0x5be0cd19]) := by
  decide

/-- E5: P = 2. -/
theorem test_init_bad_parameter : (outcome (.init 2 []) State.reset).1 = some ⟨0x01, []⟩ ∧
    (outcome (.init 2 []) State.reset).2.1 = 0x00010008 := by decide

/-- E45: STATUS = 0x00000385 is answered least significant byte first. -/
theorem test_readStatus : (outcome (.readStatus 0 []) (small .active .sha256 56)).1 = some ⟨0x00, [0x85, 0x03, 0x00, 0x00]⟩ := by
  decide

/-- E16: READ_STATUS with N = 1. -/
theorem test_readStatus_bad_length : (outcome (.readStatus 0 [0x00]) State.reset).2.1 = 0x00050008 := by decide

/-- E24. -/
theorem test_readLen : (outcome (.readLen 0 []) (fed .md5)).1 = some ⟨0x00, [3, 0, 0, 0, 0, 0, 0, 0]⟩ := by decide

/-! ### ABSORB -/

/-- E20: 0x80 and 0x00 are data. -/
theorem test_absorb_no_block :
    outcome (.absorb 0 [0x80, 0x00]) { fed .md5 with h := #v[0x67452301, 0xefcdab89, 0x98badcfe, 0x10325476, 0, 0, 0, 0] } =
      (some ⟨0x00, []⟩, 0x00000051, 5, [0x67452301, 0xefcdab89, 0x98badcfe, 0x10325476, 0, 0, 0, 0]) := by decide

/-- E19: 64 bytes of 0x61 complete one block. -/
theorem test_absorb_one_block : outcome (.absorb 0 (List.replicate 64 0x61)) (started .md5) =
    (some ⟨0x00, []⟩, 0x00000001, 64, [0x89d4ff56, 0x125cd962, 0x69cade33, 0x0033e325, 0, 0, 0, 0]) := by decide +kernel

/-! ### FINALIZE, READ_DIGEST, READ_HEX -/

/-- E25. -/
theorem test_finalize_md5 : outcome (.finalize 0 []) (fed .md5) =
    (some ⟨0x00, []⟩, 0x00000002, 3, [0x98500190, 0xb04fd23c, 0x7d3f96d6, 0x727fe128, 0, 0, 0, 0]) := by decide +kernel

/-- E46: 56 residual bytes give two blocks. -/
theorem test_finalize_sha256_two_blocks :
    let s := { started .sha256 with buf := Vector.replicate 64 0x61, bufLen := 56, len := 56 }
    outcome (.finalize 0 []) s = (some ⟨0x00, []⟩, 0x00000006, 56,
      [0xb35439a4, 0xac6f0948, 0xb6d6f9e3, 0xc6af0f5f, 0x590ce20f, 0x1bde7090, 0xef797068, 0x6ec6738a]) := by decide +kernel

/-- E32. -/
theorem test_readDigest : (outcome (.readDigest 0 []) finishedMd5).1 = some ⟨0x00,
    [0x90, 0x01, 0x50, 0x98, 0x3c, 0xd2, 0x4f, 0xb0, 0xd6, 0x96, 0x3f, 0x7d, 0x28, 0xe1, 0x7f, 0x72]⟩ := by decide

/-- E21: READ_DIGEST in ACTIVE. -/
theorem test_readDigest_not_final : (outcome (.readDigest 0 []) (fed .md5)).2.1 = 0x00040039 := by decide

/-- E33: the text 900150983cd24fb0d6963f7d28e17f72. -/
theorem test_readHex : (outcome (.readHex 0 []) finishedMd5).1 = some ⟨0x00,
    "900150983cd24fb0d6963f7d28e17f72".toList.map fun c => BitVec.ofNat 8 c.toNat⟩ := by decide +kernel

/-- E22: READ_HEX in ACTIVE. -/
theorem test_readHex_not_final : (outcome (.readHex 0 []) (fed .md5)).1 = some ⟨0x04, []⟩ := by decide

/-! ### COMPRESS, LOAD_STATE, READ_STATE -/

/-- E27. -/
theorem test_compress_md5 : outcome (.compress 0 (List.replicate 64 0x00)) (fed .md5) =
    (some ⟨0x00, []⟩, 0x00000031, 3, [0x031f1dac, 0x6ea58ed0, 0x1fab67b7, 0x74317791, 0, 0, 0, 0]) := by decide +kernel

/-- V21, last row: SHA-256, all ones. -/
theorem test_compress_sha256 :
    let s := { started .sha256 with h := Vector.replicate 8 0xffffffff }
    (outcome (.compress 0 (List.replicate 64 0xff)) s).2.2.2 =
      [0x0598127a, 0xaf11706e, 0x77401fff, 0xd730c549, 0x0b84c867, 0xa98c6ca3, 0xd7f3c0f9, 0x06a78b79] := by decide +kernel

/-- E29. -/
theorem test_loadState_md5 :
    (outcome (.loadState 0 [0, 1, 2, 3, 4, 5, 6, 7, 8, 9, 10, 11, 12, 13, 14, 15]) (fed .md5)).2 =
      (0x00000031, 3, [0x03020100, 0x07060504, 0x0b0a0908, 0x0f0e0d0c, 0, 0, 0, 0]) := by decide

/-- E42: 16 bytes under SHA-256. -/
theorem test_loadState_bad_length : (outcome (.loadState 0 (List.replicate 16 0x01)) (started .sha256)).2 =
    (0x0005000d, 0, [0x6a09e667, 0xbb67ae85, 0x3c6ef372, 0xa54ff53a, 0x510e527f, 0x9b05688c, 0x1f83d9ab, 0x5be0cd19]) := by decide

/-- E44. -/
theorem test_readState_sha256 : (outcome (.readState 0 []) (started .sha256)).1 = some ⟨0x00,
    [0x6a, 0x09, 0xe6, 0x67, 0xbb, 0x67, 0xae, 0x85, 0x3c, 0x6e, 0xf3, 0x72, 0xa5, 0x4f, 0xf5, 0x3a]
      ++ [0x51, 0x0e, 0x52, 0x7f, 0x9b, 0x05, 0x68, 0x8c, 0x1f, 0x83, 0xd9, 0xab, 0x5b, 0xe0, 0xcd, 0x19]⟩ := by decide

/-- E23. -/
theorem test_readState_md5 : (outcome (.readState 0 []) (fed .md5)).1 = some ⟨0x00,
    [0x01, 0x23, 0x45, 0x67, 0x89, 0xab, 0xcd, 0xef, 0xfe, 0xdc, 0xba, 0x98, 0x76, 0x54, 0x32, 0x10]⟩ := by decide

/-! ### Shared operations -/

/-- V16. -/
theorem test_rotations : rotl 0x12345678 22 = 0x9e048d15 ∧ rotr 0xdeadbeef 21 = 0x6df77ef5 := by decide

/-- V15, last row. -/
theorem test_md5_mixing :
    let b : Word := 0xefcdab89; let c : Word := 0x98badcfe; let d : Word := 0x10325476
    md5F b c d = 0x98badcfe ∧ md5G b c d = 0x88888888 ∧ md5H b c d = 0x67452301 ∧ md5I b c d = 0x77777777 := by decide

/-- V17, row 0x6a09e667. -/
theorem test_sha_functions : smallSigma0 0x6a09e667 = 0xba0cf582 ∧ smallSigma1 0x6a09e667 = 0xcfe5da3c ∧
    bigSigma0 0x6a09e667 = 0xce20b47e ∧ bigSigma1 0x6a09e667 = 0x55b65510 := by decide

/-- V12, MD5 with 63 bytes: 0x80 ends the first block, the length 0x1f8 stands least significant byte first. -/
theorem test_pad_63 : pad .md5 (List.replicate 63 0x61) 63 =
    List.replicate 63 0x61 ++ [0x80] ++ List.replicate 56 0x00 ++ [0xf8, 0x01, 0, 0, 0, 0, 0, 0] := by decide

/-- V13: the bit count wraps, and SHA-256 stores it most significant byte first. -/
theorem test_length_field : bytes64 .sha256 (bitLength 0x2000000000000001) = [0, 0, 0, 0, 0, 0, 0, 0x08] := by decide

/-! ### The assembler (R89, R90) -/

theorem test_assemble_text : assembleLine "absorb \"a\\n\" ; two bytes".toList = some (.command (.absorb 0 [0x61, 0x0A])) := by
  decide +kernel

theorem test_assemble_fill : assembleLine "ABSORB fill:3x61".toList = some (.command (.absorb 0 [0x61, 0x61, 0x61])) := by
  decide +kernel

theorem test_assemble_word : assembleLine ".word 0x0B000001 hex:0F".toList = some (.raw 0x0B000001 [0x0F]) := by decide +kernel

/-! ### Witnesses: states and operands that meet the hypotheses of the statements of Certificates/Slice0/Obligations.lean -/

theorem witness_decodeEncodeRoundTrip : (Instr.loadState 0xFF (List.replicate 65535 0)).wellFormed = true := by
  simp only [Instr.wellFormed, Instr.payload, List.length_replicate]; decide

theorem witness_encodeOfDecodedPair :
    [(0x61 : Byte)].length = headerN 0x02000001 ∧
      decode (commandTraffic 0x02000001 [0x61] ++ [.reset]) = .command (.absorb 0 [0x61]) [.reset] := by decide

theorem witness_stepRunsDecodedCommand :
    decode [.header 0x09000000, .reset] = .command (.readStatus 0 []) [.reset] ∧ (Instr.readStatus 0 []).wellFormed = true := by decide

theorem witness_stepChecksThenExecutes :
    ([] : List Byte).length = headerN 0x09000000 ∧ check (headerOp 0x09000000) (headerP 0x09000000) (headerN 0x09000000) State.reset = none ∧
    [(0 : Byte)].length = headerN 0x02000001 ∧
      check (headerOp 0x02000001) (headerP 0x02000001) (headerN 0x02000001) State.reset = some .noInit := by decide

theorem witness_idleMachineHoldsItsState : (small .active .md5 5).port = [] := by decide

/-- The two ends of the range of k. -/
theorem witness_truncatedCommandWaits :
    let i : Instr := .absorb 0 [0x61, 0x62]
    i.wellFormed = true ∧ 0 < i.payload.length ∧ (encode i).take 1 = [.header 0x02000002] ∧
      1 < i.payload.length ∧ (encode i).take 2 = [.header 0x02000002, .byte 0x61] := by decide

theorem witness_extraBytesAreReadAsHeader :
    ∃ payload : List Byte, payload.length = headerN (Config.headerOfBytes [0, 0, 0, 0]) :=
  ⟨List.replicate _ 0, List.length_replicate⟩

theorem witness_stepStopsOnlyForResetInsideCommand :
    decode [.header 0x02000001, .reset] = .resetInsideCommand ∧ decode [] = .idle := by decide

theorem witness_portCommandsRunInOrder :
    let is : List Instr := [.init 0 [], .absorb 0 [0x61]]
    (∀ i ∈ is, i.wellFormed = true) ∧ is.flatMap encode = [.header 0x01000000, .header 0x02000001, .byte 0x61] := by decide

theorem witness_resetEventRestoresSpecValues : { small .final .sha256 0 with port := [PortItem.reset] }.port = .reset :: [] := by decide

theorem witness_invKeptByEveryStep :
    let s := { small .active .sha256 63 with port := encode (.absorb 0 [0x61]) }
    s.Inv ∧ ∃ t, step s = .next t := by
  refine ⟨by decide, ?_⟩
  exact ⟨_, rfl⟩

/-- One header for each of the four clauses. -/
theorem witness_badHeaderAnswersBadCmd :
    (headerOp 0x00FF0000 = 0x00 ∧ headerN 0x00FF0000 = 0) ∧ (0x0B ≤ headerOp 0x0B000001 ∧ headerN 0x0B000001 = 1) ∧
    (headerOp 0x0A010000 ≠ 0x01 ∧ headerP 0x0A010000 ≠ 0) ∧ (headerOp 0x01020000 = 0x01 ∧ 0x01 < headerP 0x01020000) := by decide

theorem witness_uninitAnswersNoInit :
    let i : Instr := .readState 0 [0x01]
    State.reset.phase = .uninit ∧ i.p = 0 ∧ i.op ≠ 0x01 ∧ i.op ≠ 0x09 ∧ i.op ≠ 0x0A := by decide

theorem witness_final : (small .final .md5 0).phase = .final := by decide

theorem witness_active : (small .active .sha256 63).phase = .active := by decide

/-- The hypotheses of WrongLengthAnswersBadLen, for the required length n. -/
abbrev wrongLength (i : Instr) (s : State) (n : Nat) : Prop :=
  i.op ≠ 0x02 ∧ (i.p = 0 ∨ (i.op = 0x01 ∧ i.p = 1)) ∧
    (s.phase = .uninit → i.op = 0x01 ∨ i.op = 0x09 ∨ i.op = 0x0A) ∧
    (s.phase = .final → i.op ≠ 0x03 ∧ i.op ≠ 0x06 ∧ i.op ≠ 0x07) ∧
    (s.phase = .active → i.op ≠ 0x04 ∧ i.op ≠ 0x05) ∧ i.payload.length ≠ n

/-- One command of each required length, one byte off it. -/
theorem witness_wrongLengthAnswersBadLen :
    wrongLength (.init 1 [0]) State.reset 0 ∧ wrongLength (.compress 0 (List.replicate 63 0)) (small .active .md5 0) 64 ∧
      wrongLength (.loadState 0 (List.replicate 17 0)) (small .active .md5 0) (4 * 4) ∧
      wrongLength (.loadState 0 (List.replicate 31 0)) (small .active .sha256 0) (4 * 8) ∧
      wrongLength (.readHex 0 [0]) (small .final .md5 0) 0 := by
  refine ⟨?_, ?_, ?_, ?_, ?_⟩ <;> refine ⟨?_, ?_, ?_, ?_, ?_, ?_⟩ <;> decide

theorem witness_absorbWritesOnlyItsBufferBytes :
    (∃ t, exec (.absorb 0 [0x62]) (small .active .md5 63) = .next t) ∧
      ∀ j < 1, ((small .active .md5 63).bufLen.toNat + j) % 64 ≠ 0 :=
  ⟨⟨_, rfl⟩, by decide⟩

theorem witness_splitOfMessageDoesNotMatter : [[(1 : Byte), 2], [], [3]].flatten = [[1], [2, 3]].flatten := by decide

/-- The four clauses of PadLaysOutBytes at 54 bytes, the longest residual with a zero byte in its own block, and at 63; and the
lengths where PadFillAndLength changes. -/
theorem witness_padding :
    (List.replicate 63 (0 : Byte)).length ≤ 63 ∧ (List.replicate 55 (0 : Byte)).length ≤ 55 ∧ ¬ (List.replicate 56 (0 : Byte)).length ≤ 55 ∧
    (53 < 54 ∧ 54 < 55 ∧ 55 < 64 - 8 ∧ 7 < 8) ∧ (62 < 63 ∧ 63 < 64 ∧ 119 < 128 - 8) := by decide

theorem witness_compressAppliesTheCore :
    (small .active .md5 3).phase = .active ∧ (small .active .md5 3).alg = .md5 ∧ (small .active .sha256 3).phase = .active ∧
      (small .active .sha256 3).alg = .sha256 ∧ (List.replicate 64 (0 : Byte)).length = 64 := by decide

/-- For LoadStateWritesHash, LoadedStateReadsBack and RawCompressReachesTheCore. -/
theorem witness_loadState :
    (List.replicate 16 (0 : Byte)).length = (match (small .active .md5 3).alg with | .md5 => 16 | .sha256 => 32) ∧
      (List.replicate 32 (0 : Byte)).length = (match (small .active .sha256 3).alg with | .md5 => 16 | .sha256 => 32) := by decide

theorem witness_readStateAnswersHash : (small .final .md5 0).phase ≠ .uninit ∧ (small .active .md5 0).phase ≠ .uninit := by decide

/-- Both block counts of FinalizeCompressesThePadding. -/
theorem witness_finalizeCompressesThePadding :
    (small .active .md5 55).bufLen.toNat ≤ 55 ∧ ¬ (small .active .sha256 56).bufLen.toNat ≤ 55 ∧
      (small .active .md5 55).phase = .active ∧ (small .active .sha256 56).phase = .active := by decide

/-- One command that changes each register. -/
theorem witness_onlyNamedCommandsWrite :
    (outcome (.init 1 []) (small .active .md5 5)).2.1 = 0x00000005 ∧ (small .active .md5 5).alg ≠ .sha256 ∧
      (outcome (.init 1 []) (small .active .md5 5)).2.2.1 ≠ (small .active .md5 5).len ∧
      (outcome (.loadState 0 (List.replicate 16 0)) (small .active .md5 5)).2.2.2 ≠ (small .active .md5 5).h.toList ∧
      (stateOf (exec (.absorb 0 [0x62]) (small .active .md5 5))).buf ≠ (small .active .md5 5).buf ∧
      (stateOf (exec (.absorb 0 [0x62]) (small .active .md5 5))).bufLen ≠ (small .active .md5 5).bufLen ∧
      (stateOf (exec (.init 0 []) State.reset)).phase ≠ State.reset.phase := by decide

theorem witness_finalize_changes_phase : (stateOf (exec (.finalize 0 []) (small .active .md5 5))).phase = .final := rfl

theorem witness_md5LeavesHighWords :
    (stateOf (exec (.init 0 []) (small .final .sha256 0))).alg = .md5 := by decide

theorem witness_finalFreezesComputation :
    let i : Instr := .loadState 0 [1]
    (small .final .md5 0).phase = .final ∧ i.op ≠ 0x01 ∧ i.p = 0 ∧ (i.op = 0x02 ∨ i.op = 0x03 ∨ i.op = 0x06 ∨ i.op = 0x07) ∧
      ∃ t, exec i (small .final .md5 0) = .next t :=
  ⟨by decide, by decide, by decide, by decide, ⟨_, rfl⟩⟩

/-- A read that succeeds and one that fails. -/
theorem witness_readsAreRepeatable :
    (outcome (.readDigest 0 []) (small .final .md5 0)).1.map (·.code) = some 0x00 ∧
      (outcome (.readDigest 0 []) (small .active .md5 0)).1.map (·.code) = some 0x04 := by decide

/-- Two states that differ in H[4..7] under MD5 and in BUF from BUFLEN on, with a command to run. -/
theorem witness_unspecifiedCellsAreNeverSeen :
    let s := { small .active .md5 1 with port := encode (.absorb 0 [0x62]) }
    let t := { s with h := s.h.set 5 0xdeadbeef, buf := s.buf.set 1 0x00 }
    s ≠ t ∧ SameToHost s t ∧ ∃ s', step s = .next s' := by
  refine ⟨by decide, ?_, ⟨_, rfl⟩⟩
  unfold SameToHost
  decide

theorem witness_instancesAreIndependent :
    let sys : System 2 := #v[{ State.reset with port := encode (.init 0 []) }, { State.reset with port := encode (.init 1 []) }]
    (1 : Fin 2) ≠ 0 ∧ (∃ a, sys.stepAt 0 = .next a) ∧ ∃ b, sys.stepAt 1 = .next b :=
  ⟨by decide, ⟨_, rfl⟩, ⟨_, rfl⟩⟩

/-- The longest payload of the first clause, and both lengths of the second. -/
theorem witness_hexLinesAssemble :
    (List.replicate 65535 (0 : Byte)).length ≤ 65535 ∧ (List.replicate 16 (0 : Byte)).length = 16 ∧
      (List.replicate 32 (0 : Byte)).length = 32 := by
  simp only [List.length_replicate]; decide

end Sys2Proof.Tests
end

section
/-! The rotations of R10, bit by bit. The model writes them as an OR of two shifts; they are the library's rotations, whose
bits are known. -/

namespace Sys2Proof.Machine

theorem rotl_eq_rotateLeft (x : Word) {n : Nat} (hn : n < 32) : rotl x n = x.rotateLeft n := by
  rw [rotl, BitVec.rotateLeft_def, Nat.mod_eq_of_lt hn]

theorem rotr_eq_rotateRight (x : Word) {n : Nat} (hn : n < 32) : rotr x n = x.rotateRight n := by
  rw [rotr, BitVec.rotateRight_def, Nat.mod_eq_of_lt hn]

/-- R10: `rotl` by n moves bit k to bit k + n, around the end of the word. -/
theorem getLsbD_rotl_add_mod (x : Word) {n k : Nat} (hn : n < 32) (hk : k < 32) :
    (rotl x n).getLsbD ((k + n) % 32) = x.getLsbD k := by
  rw [rotl_eq_rotateLeft x hn, BitVec.getLsbD_rotateLeft_of_le hn]
  rcases Nat.lt_or_ge (k + n) 32 with inside | wraps
  · have target : (k + n) % 32 = k + n := Nat.mod_eq_of_lt inside
    simp [target, inside]
  · have target : (k + n) % 32 = k + n - 32 := by omega
    have source : 32 - n + (k + n - 32) = k := by omega
    have low : k + n - 32 < n := by omega
    simp [target, source, low]

/-- R10: `rotr` by n brings bit k + n, around the end of the word, to bit k. -/
theorem getLsbD_rotr (x : Word) {n k : Nat} (hn : n < 32) (hk : k < 32) :
    (rotr x n).getLsbD k = x.getLsbD ((k + n) % 32) := by
  rw [rotr_eq_rotateRight x hn, BitVec.getLsbD_rotateRight_of_lt hn]
  rcases Nat.lt_or_ge (k + n) 32 with inside | wraps
  · have source : (k + n) % 32 = n + k := by omega
    have low : k < 32 - n := by omega
    simp [source, low]
  · have source : (k + n) % 32 = k - (32 - n) := by omega
    have high : ¬ k < 32 - n := by omega
    simp [source, high, hk]

/-- Settles O38: the two bit lemmas above. At n = 0, which R10 leaves out, they hold too. -/
theorem rotationsMoveEveryBit : Obligations.RotationsMoveEveryBit := by
  intro x n k _ hle hk
  have hn : n < 32 := by omega
  exact ⟨getLsbD_rotl_add_mod x hn hk, getLsbD_rotr x hn hk⟩

end Sys2Proof.Machine
end

section
/-! What passing the check says of PHASE, and what a step answers in each case but a decodable command (`step_of_command`). -/

namespace Sys2Proof.Machine

/-- The four commands that go on with a computation pass the check in ACTIVE only (R302, R303). -/
theorem phase_active_of_check {i : Instr} {s : State} (h : check i.op i.p i.payload.length s = none)
    (hop : i.op = 0x02 ∨ i.op = 0x03 ∨ i.op = 0x06 ∨ i.op = 0x07) : s.phase = .active := by
  obtain ⟨huninit, hfinal, -⟩ := check_none_phase h
  cases hp : s.phase with
  | uninit => exact absurd (huninit hp) (by rcases hop with e | e | e | e <;> simp [e])
  | active => rfl
  | final => exact absurd (hfinal hp) (by rcases hop with e | e | e | e <;> simp [e])

/-- Before the first INIT only INIT, READ_STATUS and READ_LEN pass the check (R302). -/
theorem phase_ne_uninit_of_check {i : Instr} {s : State} (h : check i.op i.p i.payload.length s = none)
    (hop : ¬ (i.op = 0x01 ∨ i.op = 0x09 ∨ i.op = 0x0A)) : s.phase ≠ .uninit :=
  fun hp => hop ((check_none_phase h).1 hp)

/-- READ_STATUS with no payload succeeds in every phase (R104). -/
theorem exec_readStatus_ok (s : State) :
    exec (.readStatus 0 []) s = .next (respond okCode (le32bytes (statusWord s)) s) := by
  rw [exec_of_check_none]; rfl
  simp [check, Instr.op, Instr.p, Instr.payload, lengthAllowed]

/-- The step of a port that begins with a complete command of a reserved OP (R84, R87). -/
theorem step_of_reservedOpcode {s : State} {op : BitVec 8} {rest : List PortItem}
    (h : decode s.port = .reservedOpcode op rest) : step s = .next (raiseError .badCmd (withPort rest s)) := by
  simp only [step, h, rejectReserved]

/-- The step of a port that begins with the reset event (R340). -/
theorem step_of_resetEvent {s : State} {rest : List PortItem} (h : decode s.port = .resetEvent rest) :
    step s = .next (applyReset (withPort rest s)) := by
  simp only [step, h]

/-- A step with no complete command on the port (R315, R353). -/
theorem step_of_nothing {s : State} (h : decode s.port = .idle ∨ decode s.port = .waiting) : step s = .next s := by
  obtain h | h := h <;> simp only [step, h]

end Sys2Proof.Machine
end

section
/-! STATUS (R29). The word is the concatenation of its fields, so every bit range of it is read off by place value. -/

namespace Sys2Proof.Machine

/-- R29: from bit 31 down, the fields of STATUS and its two reserved ranges. -/
theorem statusWord_eq_append (s : State) :
    statusWord s = 0#8 ++ s.ecode ++ 0#6 ++ s.bufLen ++ BitVec.ofBool s.err ++ s.alg.bit ++ s.phase.bits := by
  apply BitVec.eq_of_getLsbD_eq
  intro i hi
  simp only [statusWord, BitVec.getLsbD_append, BitVec.getLsbD_or, BitVec.getLsbD_shiftLeft, BitVec.getLsbD_setWidth]
  interval_cases i <;> simp

theorem toNat_append_eq_add {v w : Nat} (x : BitVec v) (y : BitVec w) :
    (x ++ y).toNat = x.toNat * 2 ^ w + y.toNat := by
  rw [BitVec.toNat_append, ← Nat.shiftLeft_add_eq_or_of_lt y.isLt, Nat.shiftLeft_eq]

/-- The place value of each field. -/
theorem statusWord_toNat (s : State) :
    (statusWord s).toNat = s.ecode.toNat * 2 ^ 16 + s.bufLen.toNat * 2 ^ 4 + (BitVec.ofBool s.err).toNat * 2 ^ 3 +
      s.alg.bit.toNat * 2 ^ 2 + s.phase.bits.toNat := by
  rw [statusWord_eq_append]
  simp only [toNat_append_eq_add, BitVec.toNat_ofNat]
  omega

/-- Each bit range of STATUS holds its register, and the reserved ranges hold 0. -/
theorem statusWord_ranges (s : State) :
    (statusWord s).extractLsb' 0 2 = s.phase.bits ∧
    (statusWord s).extractLsb' 2 1 = s.alg.bit ∧
    (statusWord s).extractLsb' 3 1 = BitVec.ofBool s.err ∧
    (statusWord s).extractLsb' 4 6 = s.bufLen ∧
    (statusWord s).extractLsb' 10 6 = 0 ∧
    (statusWord s).extractLsb' 16 8 = s.ecode ∧
    (statusWord s).extractLsb' 24 8 = 0 := by
  have hphase := s.phase.bits.isLt
  have halg := s.alg.bit.isLt
  have herr := (BitVec.ofBool s.err).isLt
  have hbufLen := s.bufLen.isLt
  have hecode := s.ecode.isLt
  refine ⟨?_, ?_, ?_, ?_, ?_, ?_, ?_⟩ <;>
    · apply BitVec.eq_of_toNat_eq
      simp only [BitVec.extractLsb'_toNat, statusWord_toNat, Nat.shiftRight_eq_div_pow, BitVec.ofNat_eq_ofNat,
        BitVec.toNat_ofNat]
      omega

/-- Settles O16: the bit ranges above, with each register's value written out, and READ_STATUS. -/
theorem statusWordFields : Obligations.StatusWordFields := by
  intro s
  obtain ⟨hphase, halg, herr, hrest⟩ := statusWord_ranges s
  obtain ⟨hbufLen, hlow, hecode, hhigh⟩ := hrest
  refine ⟨?_, ?_, ?_, hbufLen, hlow, hecode, hhigh, exec_readStatus_ok s⟩
  · rw [hphase]; cases s.phase <;> rfl
  · rw [halg]; cases s.alg <;> rfl
  · rw [herr]; cases s.err <;> rfl

end Sys2Proof.Machine
end

section
/-! The registers each command's effect leaves as they are, one lemma per register, and from them which commands write it. -/

namespace Sys2Proof.Machine

theorem effectOf_alg_frame {i : Instr} (h : ¬ i.op = 0x01) (s : State) : (effectOf i s).alg = s.alg := by
  cases i <;> simp [effectOf, Instr.op] at h ⊢

theorem effectOf_len_frame {i : Instr} (h : ¬ (i.op = 0x01 ∨ i.op = 0x02)) (s : State) : (effectOf i s).len = s.len := by
  cases i <;> simp [effectOf, Instr.op] at h ⊢

theorem effectOf_h_frame {i : Instr} (h : ¬ (i.op = 0x01 ∨ i.op = 0x02 ∨ i.op = 0x03 ∨ i.op = 0x06 ∨ i.op = 0x07))
    (s : State) : (effectOf i s).h = s.h := by
  cases i <;> simp [effectOf, Instr.op] at h ⊢

theorem effectOf_buf_frame {i : Instr} (h : ¬ i.op = 0x02) (s : State) : (effectOf i s).buf = s.buf := by
  cases i <;> simp [effectOf, Instr.op] at h ⊢

theorem effectOf_bufLen_frame {i : Instr} (h : ¬ (i.op = 0x01 ∨ i.op = 0x02 ∨ i.op = 0x03)) (s : State) :
    (effectOf i s).bufLen = s.bufLen := by
  cases i <;> simp [effectOf, Instr.op] at h ⊢

/-- PHASE after a command that succeeds (R20). -/
theorem effectOf_phase (i : Instr) (s : State) :
    (effectOf i s).phase = if i.op = 0x01 then .active else if i.op = 0x03 then .final else s.phase := by
  cases i <;> rfl

@[simp] theorem effectOf_resets (i : Instr) (s : State) : (effectOf i s).resets = s.resets := by
  cases i <;> rfl

@[simp] theorem effectOf_port (i : Instr) (s : State) : (effectOf i s).port = s.port := by
  cases i <;> rfl

/-- A part of the state that neither the error procedure nor the command's effect changes is as it was after the command. -/
theorem exec_keeps {α : Type} (part : State → α) {i : Instr} {s t : State} (hraise : ∀ c, part (raiseError c s) = part s)
    (heffect : part (effectOf i s) = part s) (h : exec i s = .next t) : part t = part s := by
  obtain ⟨c, -, rfl⟩ | ⟨-, rfl⟩ := exec_cases h
  · exact hraise c
  · exact heffect

/-- The two changes of PHASE a command can make: INIT to ACTIVE, and FINALIZE from ACTIVE to FINAL. -/
theorem exec_phase_change {i : Instr} {s t : State} (h : exec i s = .next t) (hne : t.phase ≠ s.phase) :
    (i.op = 0x01 ∧ t.phase = .active) ∨ (i.op = 0x03 ∧ s.phase = .active ∧ t.phase = .final) := by
  obtain ⟨c, -, rfl⟩ | ⟨hcheck, rfl⟩ := exec_cases h
  · exact absurd rfl hne
  · by_cases hinit : i.op = 0x01
    · exact .inl ⟨hinit, by simp [effectOf_phase, hinit]⟩
    · by_cases hfinalize : i.op = 0x03
      · exact .inr ⟨hfinalize, phase_active_of_check hcheck (.inr (.inl hfinalize)), by simp [effectOf_phase, hfinalize]⟩
      · exact absurd (by rw [effectOf_phase, if_neg hinit, if_neg hfinalize]) hne

/-- Settles O50: a register's writers are named by the contrapositive of its frame lemma. -/
theorem onlyNamedCommandsWrite : Obligations.OnlyNamedCommandsWrite := by
  intro i s t h
  refine ⟨?_, ?_, ?_, ?_, ?_, exec_phase_change h, ?_, ?_⟩
  · exact not_imp_comm.mp fun hop => exec_keeps State.alg (fun _ => rfl) (effectOf_alg_frame hop s) h
  · exact not_imp_comm.mp fun hop => exec_keeps State.len (fun _ => rfl) (effectOf_len_frame hop s) h
  · exact not_imp_comm.mp fun hop => exec_keeps State.h (fun _ => rfl) (effectOf_h_frame hop s) h
  · exact not_imp_comm.mp fun hop => exec_keeps State.buf (fun _ => rfl) (effectOf_buf_frame hop s) h
  · exact not_imp_comm.mp fun hop => exec_keeps State.bufLen (fun _ => rfl) (effectOf_bufLen_frame hop s) h
  · exact exec_keeps State.resets (fun _ => rfl) (effectOf_resets i s) h
  · exact exec_keeps State.port (fun _ => rfl) (effectOf_port i s) h

/-- The words of H beyond the W of the algorithm a command ends with are not written (R23). -/
theorem effectOf_high (i : Instr) (s : State) {k : Nat} (hk : k < 8) (hw : stateWords (effectOf i s).alg ≤ k) :
    (effectOf i s).h[k] = s.h[k] := by
  cases i with
  | init p payload => exact (writeHash_get _ _ _ _ hk).trans (if_neg (Nat.not_lt.mpr hw))
  | absorb p payload => exact accumLoop_high s.alg _ s.bufLen.isLt payload hk hw
  | finalize p payload => exact foldBlocks_high s.alg s.h _ hk hw
  | compress p payload => exact compressHash_high s.alg s.h payload hk hw
  | loadState p payload => exact (writeHash_get _ _ _ _ hk).trans (if_neg (Nat.not_lt.mpr hw))
  | readDigest | readHex | readState | readStatus | readLen => rfl

/-- Settles O51: under MD5, W is 4. -/
theorem md5LeavesHighWords : Obligations.Md5LeavesHighWords := by
  intro i s t h hmd5
  obtain ⟨c, -, rfl⟩ | ⟨-, rfl⟩ := exec_cases h
  · rfl
  · apply List.ext_getElem
    · simp
    · intro j hj _
      simp only [List.getElem_drop, Vector.getElem_toList]
      exact effectOf_high i s _ (by simp [hmd5, stateWords])

end Sys2Proof.Machine
end

section
/-! The invariant of the machine: every operation a step is made of keeps it. -/

namespace Sys2Proof.Machine

/-- A response more, itself allowed, leaves every response an allowed one. -/
theorem allowed_append {rs : List Response} {r : Response} (hrs : ∀ q ∈ rs, q.Allowed) (hr : r.Allowed) :
    ∀ q ∈ rs ++ [r], q.Allowed := by
  intro q hq
  obtain hq | hq := List.mem_append.mp hq
  · exact hrs q hq
  · rwa [List.mem_singleton.mp hq]

theorem okResponse_allowed (data : List Byte) : Response.Allowed ⟨okCode, data⟩ :=
  ⟨show okCode ≤ 0x05 by decide, fun h => absurd rfl h⟩

theorem errorResponse_allowed (c : ErrorCode) : Response.Allowed ⟨c.code, []⟩ :=
  ⟨(errorCode_bounds c).2, fun _ => rfl⟩

theorem inv_reset : State.reset.Inv := by
  decide

theorem inv_withPort {s : State} (h : s.Inv) (rest : List PortItem) : (withPort rest s).Inv := h

theorem inv_applyReset {s : State} (h : s.Inv) : (applyReset s).Inv := by
  obtain ⟨-, -, -, -, -, hresponses⟩ := h
  refine ⟨?_, ?_, ?_, ?_, ?_, hresponses⟩ <;> simp

/-- The error procedure sets ERR and a code that is not 0. -/
theorem inv_raiseError {s : State} (h : s.Inv) (c : ErrorCode) : (raiseError c s).Inv := by
  obtain ⟨hactive, hidle, huninit, -, -, hresponses⟩ := h
  obtain ⟨hne, hle⟩ := errorCode_bounds c
  exact ⟨hactive, hidle, huninit, hle, iff_of_false (by simp) hne, allowed_append hresponses (errorResponse_allowed c)⟩

theorem inv_respond_ok {s : State} (h : s.Inv) (data : List Byte) : (respond okCode data s).Inv := by
  obtain ⟨hactive, hidle, huninit, hcode, herr, hresponses⟩ := h
  exact ⟨hactive, hidle, huninit, hcode, herr, allowed_append hresponses (okResponse_allowed data)⟩

/-- The invariant does not speak of H. -/
theorem inv_setHash {s : State} (h : s.Inv) (hash : Vector Word 8) : State.Inv { s with h := hash } := h

theorem inv_initEffect {s : State} (h : s.Inv) (p : BitVec 8) : (initEffect p s).Inv := by
  obtain ⟨-, -, -, -, -, hresponses⟩ := h
  refine ⟨?_, ?_, ?_, ?_, ?_, allowed_append hresponses (okResponse_allowed [])⟩ <;> simp

/-- BUFLEN after ABSORB is the count of the old and the new bytes, modulo 64 (R122). -/
theorem accumulate_bufLen_toNat (bytes : List Byte) (s : State) :
    (accumulate bytes s).bufLen.toNat = (s.bufLen.toNat + bytes.length) % 64 := by
  obtain ⟨-, hn, -⟩ := accumLoop_blocks s.alg ⟨s.buf, s.h, s.bufLen.toNat⟩ s.bufLen.isLt bytes
  rw [accumulate_bufLen, BitVec.toNat_ofNat, hn]
  simp

/-- BUFLEN and LEN advance by the same count, and 64 divides 2^64. -/
theorem inv_accumulate {s : State} (h : s.Inv) (hphase : s.phase = .active) (bytes : List Byte) :
    (accumulate bytes s).Inv := by
  obtain ⟨hactive, -, -, hcode, herr, hresponses⟩ := h
  refine ⟨fun _ => ?_, fun hne => absurd hphase hne, ?_, hcode, herr, hresponses⟩
  · have hsync := hactive hphase
    rw [accumulate_bufLen_toNat, accumulate_len, BitVec.toNat_add, BitVec.toNat_ofNat]
    omega
  · simp [hphase]

theorem inv_finalizeEffect {s : State} (h : s.Inv) : (finalizeEffect s).Inv := by
  obtain ⟨-, -, -, hcode, herr, hresponses⟩ := h
  refine ⟨?_, ?_, ?_, hcode, herr, hresponses⟩ <;> simp

theorem inv_effectOf {i : Instr} {s : State} (h : s.Inv) (hcheck : check i.op i.p i.payload.length s = none) :
    (effectOf i s).Inv := by
  cases i with
  | init p payload => exact inv_initEffect h p
  | absorb p payload =>
    exact inv_respond_ok (inv_accumulate h (phase_active_of_check hcheck (.inl rfl)) payload) []
  | finalize p payload => exact inv_respond_ok (inv_finalizeEffect h) []
  | compress p payload => exact inv_respond_ok (inv_setHash h _) []
  | loadState p payload => exact inv_respond_ok (inv_setHash h _) []
  | readDigest | readHex | readState | readStatus | readLen => exact inv_respond_ok h _

theorem inv_exec {i : Instr} {s t : State} (h : s.Inv) (he : exec i s = .next t) : t.Inv := by
  obtain ⟨c, -, rfl⟩ | ⟨hcheck, rfl⟩ := exec_cases he
  · exact inv_raiseError h c
  · exact inv_effectOf h hcheck

/-- Settles O15, by the cases of a step. -/
theorem invKeptByEveryStep : Obligations.InvKeptByEveryStep := by
  intro s t h hstep
  obtain ⟨i, rest, -, he⟩ | ⟨op, rest, -, rfl⟩ | ⟨rest, -, rfl⟩ | ⟨-, rfl⟩ := step_cases hstep
  · exact inv_exec (inv_withPort h rest) he
  · exact inv_raiseError (inv_withPort h rest) .badCmd
  · exact inv_applyReset (inv_withPort h rest)
  · exact h

/-- Settles O14. -/
theorem invHoldsAtReset : Obligations.InvHoldsAtReset := inv_reset

/-- Settles O12: each register of the reset state, and the STATUS they come to. -/
theorem resetStateHoldsSpecValues : Obligations.ResetStateHoldsSpecValues := by
  refine ⟨rfl, rfl, rfl, rfl, rfl, rfl, ?_⟩
  decide

end Sys2Proof.Machine
end

section
/-! Unspecified cells (R34). `SameToHost` is split into the registers every step reads and the two stores of the computation,
H[0..W-1] and the valid bytes of BUF, of which a step sees that much and no more. -/

namespace Sys2Proof.Machine

/-- The two states agree in every register and in what the host has sent and seen. -/
structure SameRegisters (s t : State) : Prop where
  phase : s.phase = t.phase
  alg : s.alg = t.alg
  bufLen : s.bufLen = t.bufLen
  len : s.len = t.len
  err : s.err = t.err
  ecode : s.ecode = t.ecode
  port : s.port = t.port
  responses : s.responses = t.responses

/-- The two states agree in H[0..W-1] and in the valid bytes of BUF. -/
structure SameStores (s t : State) : Prop where
  hash : ∀ (k : Nat) (hk : k < 8), k < stateWords s.alg → s.h[k] = t.h[k]
  valid : bufBytes s.buf s.bufLen.toNat = bufBytes t.buf t.bufLen.toNat

theorem bufRead_eq_of_bufBytes_eq {b c : Vector Byte 64} {n : Nat} (h : bufBytes b n = bufBytes c n) :
    ∀ i < n, bufRead b i = bufRead c i := by
  simpa [bufBytes] using h

theorem sameToHost_iff (s t : State) :
    SameToHost s t ↔ SameRegisters s t ∧ (s.phase ≠ .uninit → SameStores s t) := by
  constructor
  · rintro ⟨hphase, halg, hbufLen, hlen, herr, hecode, hport, hresponses, hhash, hvalid⟩
    exact ⟨⟨hphase, halg, hbufLen, hlen, herr, hecode, hport, hresponses⟩, fun hp =>
      ⟨fun k hk hw => hhash hp ⟨k, hk⟩ hw, hbufLen ▸ bufBytes_congr (hvalid hp)⟩⟩
  · rintro ⟨⟨hphase, halg, hbufLen, hlen, herr, hecode, hport, hresponses⟩, hstores⟩
    exact ⟨hphase, halg, hbufLen, hlen, herr, hecode, hport, hresponses,
      fun hp k hw => (hstores hp).hash k k.isLt hw,
      fun hp => bufRead_eq_of_bufBytes_eq ((hstores hp).valid.trans (by rw [hbufLen]))⟩

theorem sameToHost_respond {s t : State} (h : SameToHost s t) (code : BitVec 8) (data : List Byte) :
    SameToHost (respond code data s) (respond code data t) := by
  rw [sameToHost_iff] at h ⊢
  obtain ⟨r, hstores⟩ := h
  exact ⟨⟨r.phase, r.alg, r.bufLen, r.len, r.err, r.ecode, r.port, by simp [r.responses]⟩,
    fun hp => ⟨(hstores hp).hash, (hstores hp).valid⟩⟩

theorem sameToHost_raiseError {s t : State} (h : SameToHost s t) (c : ErrorCode) :
    SameToHost (raiseError c s) (raiseError c t) := by
  rw [sameToHost_iff] at h ⊢
  obtain ⟨r, hstores⟩ := h
  exact ⟨⟨r.phase, r.alg, r.bufLen, r.len, rfl, rfl, r.port, by simp [r.responses]⟩,
    fun hp => ⟨(hstores hp).hash, (hstores hp).valid⟩⟩

theorem sameToHost_withPort {s t : State} (h : SameToHost s t) (rest : List PortItem) :
    SameToHost (withPort rest s) (withPort rest t) := by
  rw [sameToHost_iff] at h ⊢
  obtain ⟨r, hstores⟩ := h
  exact ⟨⟨r.phase, r.alg, r.bufLen, r.len, r.err, r.ecode, rfl, r.responses⟩,
    fun hp => ⟨(hstores hp).hash, (hstores hp).valid⟩⟩

/-- After a reset event all of H and BUF is unspecified, so nothing is to be shown of it (R340). -/
theorem sameToHost_applyReset {s t : State} (h : SameToHost s t) : SameToHost (applyReset s) (applyReset t) := by
  rw [sameToHost_iff] at h ⊢
  obtain ⟨r, -⟩ := h
  exact ⟨⟨rfl, rfl, rfl, rfl, rfl, rfl, r.port, r.responses⟩, fun hp => absurd rfl hp⟩

theorem sameToHost_setHash {s t : State} (h : SameToHost s t) {hs ht : Vector Word 8}
    (e : ∀ (k : Nat) (hk : k < 8), k < stateWords s.alg → hs[k] = ht[k]) :
    SameToHost { s with h := hs } { t with h := ht } := by
  rw [sameToHost_iff] at h ⊢
  obtain ⟨r, hstores⟩ := h
  exact ⟨⟨r.phase, r.alg, r.bufLen, r.len, r.err, r.ecode, r.port, r.responses⟩, fun hp => ⟨e, (hstores hp).valid⟩⟩

/-- INIT writes all of H that the algorithm uses, and leaves no byte of BUF valid (R100). -/
theorem sameToHost_initEffect {s t : State} (h : SameToHost s t) (p : BitVec 8) :
    SameToHost (initEffect p s) (initEffect p t) := by
  rw [sameToHost_iff] at h ⊢
  obtain ⟨r, -⟩ := h
  refine ⟨⟨rfl, rfl, rfl, rfl, rfl, rfl, r.port, by simp [r.responses]⟩, fun _ => ⟨fun k hk hw => ?_, rfl⟩⟩
  rw [initEffect_alg] at hw
  rw [initEffect_h, initEffect_h, writeHash_get _ _ _ _ hk, writeHash_get _ _ _ _ hk, if_pos hw, if_pos hw]

/-- The loop of R121 from two buffers with the same valid bytes and two register files that agree on H[0..W-1]. -/
theorem accumLoop_congr {alg : Alg} {a b : Accum} (ha : a.n < 64) (hn : a.n = b.n)
    (hbuf : bufBytes a.buf a.n = bufBytes b.buf b.n)
    (hh : ∀ (k : Nat) (hk : k < 8), k < stateWords alg → a.h[k] = b.h[k]) (x : List Byte) :
    let p := accumLoop alg a x
    let q := accumLoop alg b x
    p.n = q.n ∧ bufBytes p.buf p.n = bufBytes q.buf q.n ∧
      ∀ (k : Nat) (hk : k < 8), k < stateWords alg → p.h[k] = q.h[k] := by
  obtain ⟨ph, pn, pbuf⟩ := accumLoop_blocks alg a ha x
  obtain ⟨qh, qn, qbuf⟩ := accumLoop_blocks alg b (hn ▸ ha) x
  rw [hbuf] at ph pn pbuf
  refine ⟨pn.trans qn.symm, pbuf.trans qbuf.symm, fun k hk hw => ?_⟩
  simp only [ph, qh]
  exact foldBlocks_congr _ hh k hk hw

/-- The valid bytes after ABSORB are those the loop leaves: BUFLEN holds its count whole. -/
theorem bufBytes_accumulate (x : List Byte) (s : State) :
    let r := accumLoop s.alg ⟨s.buf, s.h, s.bufLen.toNat⟩ x
    bufBytes (accumulate x s).buf (accumulate x s).bufLen.toNat = bufBytes r.buf r.n := by
  obtain ⟨-, hn, -⟩ := accumLoop_blocks s.alg ⟨s.buf, s.h, s.bufLen.toNat⟩ s.bufLen.isLt x
  rw [accumulate_buf, accumulate_bufLen, BitVec.toNat_ofNat, Nat.mod_eq_of_lt]
  rw [hn]
  exact Nat.mod_lt _ (by decide)

theorem sameToHost_accumulate {s t : State} (h : SameToHost s t) (hphase : s.phase = .active) (x : List Byte) :
    SameToHost (accumulate x s) (accumulate x t) := by
  rw [sameToHost_iff] at h ⊢
  obtain ⟨r, hstores⟩ := h
  obtain ⟨hhash, hvalid⟩ := hstores (by simp [hphase])
  obtain ⟨hn, hbuf, hh⟩ := accumLoop_congr (alg := s.alg) (a := ⟨s.buf, s.h, s.bufLen.toNat⟩)
    (b := ⟨t.buf, t.h, t.bufLen.toNat⟩) s.bufLen.isLt (by rw [r.bufLen]) hvalid hhash x
  refine ⟨⟨r.phase, r.alg, ?_, ?_, r.err, r.ecode, r.port, r.responses⟩, fun _ => ⟨?_, ?_⟩⟩
  · rw [accumulate_bufLen, accumulate_bufLen, hn, r.alg]
  · rw [accumulate_len, accumulate_len, r.len]
  · intro k hk hw
    rw [accumulate_alg] at hw
    simp only [accumulate_h, ← r.alg]
    exact hh k hk hw
  · rw [bufBytes_accumulate, bufBytes_accumulate, hbuf, r.alg]

/-- FINALIZE pads and folds what the two states agree in, and leaves no byte of BUF valid (R266). -/
theorem sameToHost_finalizeEffect {s t : State} (h : SameToHost s t) (hphase : s.phase = .active) :
    SameToHost (finalizeEffect s) (finalizeEffect t) := by
  rw [sameToHost_iff] at h ⊢
  obtain ⟨r, hstores⟩ := h
  obtain ⟨hhash, hvalid⟩ := hstores (by simp [hphase])
  refine ⟨⟨rfl, r.alg, rfl, r.len, r.err, r.ecode, r.port, r.responses⟩, fun _ => ⟨fun k hk hw => ?_, rfl⟩⟩
  rw [finalizeEffect_h, finalizeEffect_h, ← hvalid, ← r.len, ← r.alg]
  exact foldBlocks_congr _ hhash k hk hw

/-- The digest bytes are the same to the host once a computation has begun (R260). -/
theorem serialize_sameToHost {s t : State} (h : SameToHost s t) (hphase : s.phase ≠ .uninit) :
    serialize s.alg s.h = serialize t.alg t.h := by
  obtain ⟨r, hstores⟩ := (sameToHost_iff s t).mp h
  rw [← r.alg]
  exact serialize_congr (hstores hphase).hash

theorem statusWord_sameToHost {s t : State} (h : SameToHost s t) : statusWord s = statusWord t := by
  obtain ⟨r, -⟩ := (sameToHost_iff s t).mp h
  simp only [statusWord, r.phase, r.alg, r.err, r.bufLen, r.ecode]

/-- A command that passes the check depends on what the two states agree in. -/
theorem sameToHost_effectOf {i : Instr} {s t : State} (h : SameToHost s t)
    (hcheck : check i.op i.p i.payload.length s = none) : SameToHost (effectOf i s) (effectOf i t) := by
  obtain ⟨r, hstores⟩ := (sameToHost_iff s t).mp h
  cases i with
  | init p payload => exact sameToHost_initEffect h p
  | absorb p payload =>
    have hactive := phase_active_of_check hcheck (.inl rfl)
    exact sameToHost_respond (sameToHost_accumulate h hactive payload) okCode []
  | finalize p payload =>
    have hactive := phase_active_of_check hcheck (.inr (.inl rfl))
    exact sameToHost_respond (sameToHost_finalizeEffect h hactive) okCode []
  | compress p payload =>
    have hphase := phase_ne_uninit_of_check hcheck (by simp [Instr.op])
    refine sameToHost_respond (sameToHost_setHash h ?_) okCode []
    rw [← r.alg]
    exact compressHash_congr payload (hstores hphase).hash
  | loadState p payload =>
    refine sameToHost_respond (sameToHost_setHash h fun k hk hw => ?_) okCode []
    rw [← r.alg, writeHash_get _ _ _ _ hk, writeHash_get _ _ _ _ hk, if_pos hw, if_pos hw]
  | readDigest p payload | readHex p payload | readState p payload =>
    have hphase := phase_ne_uninit_of_check hcheck (by simp [Instr.op])
    simp only [effectOf, ← serialize_sameToHost h hphase]
    exact sameToHost_respond h okCode _
  | readStatus p payload =>
    simp only [effectOf, ← statusWord_sameToHost h]
    exact sameToHost_respond h okCode _
  | readLen p payload =>
    simp only [effectOf, ← r.len]
    exact sameToHost_respond h okCode _

theorem sameToHost_exec {i : Instr} {s t s' : State} (h : SameToHost s t) (he : exec i s = .next s') :
    ∃ t', exec i t = .next t' ∧ SameToHost s' t' := by
  obtain ⟨r, -⟩ := (sameToHost_iff s t).mp h
  have hsame := check_congr r.phase r.alg i.op i.p i.payload.length
  obtain ⟨c, hc, rfl⟩ | ⟨hnone, rfl⟩ := exec_cases he
  · exact ⟨_, exec_of_check_some (hsame ▸ hc), sameToHost_raiseError h c⟩
  · exact ⟨_, exec_of_check_none (hsame ▸ hnone), sameToHost_effectOf h hnone⟩

/-- Settles O54: the two ports are the same, so both steps take the same case of `step_cases`. -/
theorem unspecifiedCellsAreNeverSeen : Obligations.UnspecifiedCellsAreNeverSeen := by
  intro s t s' h hstep
  obtain ⟨r, -⟩ := (sameToHost_iff s t).mp h
  obtain ⟨i, rest, hd, he⟩ | ⟨op, rest, hd, rfl⟩ | ⟨rest, hd, rfl⟩ | ⟨hd, rfl⟩ := step_cases hstep <;>
    rw [r.port] at hd
  · rw [step_of_command hd]
    exact sameToHost_exec (sameToHost_withPort h rest) he
  · exact ⟨_, step_of_reservedOpcode hd, sameToHost_raiseError (sameToHost_withPort h rest) .badCmd⟩
  · exact ⟨_, step_of_resetEvent hd, sameToHost_applyReset (sameToHost_withPort h rest)⟩
  · exact ⟨t, step_of_nothing hd, h⟩

end Sys2Proof.Machine
end

section
/-! The command port (R72, R80): a port that begins with the encodings of commands runs exactly these, in order. -/

namespace Sys2Proof.Machine

theorem decode_encode_append {i : Instr} (h : i.wellFormed = true) (rest : List PortItem) :
    decode (encode i ++ rest) = .command i rest := by
  rw [encode, List.cons_append, decode_pair i.header i.payload rest (headerN_header h).symm, decodeCommand_header]

theorem step_encode_append {i : Instr} (h : i.wellFormed = true) (rest : List PortItem) (s : State) :
    step (withPort (encode i ++ rest) s) = exec i (withPort rest s) :=
  step_of_command (decode_encode_append h rest)

theorem withPort_eq_self {s : State} {rest : List PortItem} (h : s.port = rest) : withPort rest s = s := by
  subst h
  rfl

/-- With nothing on the port, CORE holds its state (R315). -/
theorem run_of_port_nil {s : State} (h : s.port = []) (k : Nat) : Host.Core.run core k s = .next s := by
  induction k with
  | zero => rfl
  | succ k ih =>
    have hidle : step s = .next s := step_of_nothing (.inl (by rw [h]; rfl))
    simp only [run_succ, hidle, ih]

/-- Commands run to a next state, with one response each and the port as it is (R86). -/
theorem execAll_next (is : List Instr) (s : State) :
    ∃ t, execAll is s = .next t ∧ t.port = s.port ∧ t.responses.length = s.responses.length + is.length := by
  induction is generalizing s with
  | nil => exact ⟨s, rfl, rfl, rfl⟩
  | cons i is ih =>
    obtain ⟨u, hexec, hport, hcount⟩ := exec_next i s
    obtain ⟨t, hrun, hport', hcount'⟩ := ih u
    refine ⟨t, by simp only [execAll, hexec, hrun], hport'.trans hport, ?_⟩
    rw [hcount', hcount, List.length_cons]
    omega

/-- As many steps as there are commands on the port run these, and leave what stands behind them (R72). -/
theorem run_encoded {is : List Instr} (hwf : ∀ i ∈ is, i.wellFormed = true) {rest : List PortItem} {s t : State}
    (h : execAll is (withPort rest s) = .next t) (k : Nat) :
    Host.Core.run core (is.length + k) (withPort (is.flatMap encode ++ rest) s) = Host.Core.run core k t := by
  induction is generalizing s with
  | nil =>
    cases h
    simp
  | cons i is ih =>
    obtain ⟨hi, his⟩ := List.forall_mem_cons.mp hwf
    obtain ⟨u, hexec, hport, -⟩ := exec_next i (withPort rest s)
    simp only [execAll, hexec] at h
    have hstep : step (withPort ((i :: is).flatMap encode ++ rest) s) = .next (withPort (is.flatMap encode ++ rest) u) := by
      rw [List.flatMap_cons, List.append_assoc, step_encode_append hi]
      exact exec_withPort i s u rest _ hexec
    have hcount : (i :: is).length + k = (is.length + k) + 1 := by
      rw [List.length_cons]
      omega
    rw [hcount, run_succ, hstep]
    have hfront : withPort rest u = u := withPort_eq_self hport
    exact ih his (by rwa [hfront])

/-- Settles O11: the commands' own n steps, then idle steps. -/
theorem portCommandsRunInOrder : Obligations.PortCommandsRunInOrder := by
  intro is s k hwf hsent
  obtain ⟨t, hall, hport, hcount⟩ := execAll_next is (withPort [] s)
  refine ⟨t, hall, ?_, hport, hcount⟩
  have hrun := run_encoded hwf hall k
  rwa [List.append_nil, withPort_eq_self hsent, run_of_port_nil hport] at hrun

end Sys2Proof.Machine
end

section
/-! The READ commands (R71): what each one answers with, and that a response more does not change the answer. -/

namespace Sys2Proof.Machine

/-- The opcodes of the five READ commands (R83). -/
abbrev IsReadOp (op : BitVec 8) : Prop := op = 0x04 ∨ op = 0x05 ∨ op = 0x08 ∨ op = 0x09 ∨ op = 0x0A

/-- The data a READ command answers with when it succeeds; no byte for the other commands. -/
def readData : Instr → State → List Byte
  | .readDigest _ _, s | .readState _ _, s => serialize s.alg s.h
  | .readHex _ _, s => hex (serialize s.alg s.h)
  | .readStatus _ _, s => le32bytes (statusWord s)
  | .readLen _ _, s => le64bytes s.len
  | .init _ _, _ | .absorb _ _, _ | .finalize _ _, _ | .compress _ _, _ | .loadState _ _, _ => []

theorem effectOf_read {i : Instr} (h : IsReadOp i.op) (s : State) : effectOf i s = respond okCode (readData i s) s := by
  cases i with
  | init | absorb | finalize | compress | loadState => simp [IsReadOp, Instr.op] at h
  | readDigest | readHex | readState | readStatus | readLen => rfl

/-- No READ command looks at the responses. -/
theorem readData_respond (i : Instr) (code : BitVec 8) (data : List Byte) (s : State) :
    readData i (respond code data s) = readData i s := by
  cases i <;> rfl

/-- A command that fails does so again, for the check reads neither ERR nor ECODE. -/
theorem exec_raiseError {i : Instr} {s : State} {c : ErrorCode} (h : check i.op i.p i.payload.length s = some c) :
    exec i (raiseError c s) = .next (raiseError c (raiseError c s)) :=
  exec_of_check_some ((check_congr rfl rfl _ _ _).trans h)

/-- A READ command that succeeds does so again, with the same data. -/
theorem exec_respond_read {i : Instr} {s : State} (hop : IsReadOp i.op) (h : check i.op i.p i.payload.length s = none)
    (data : List Byte) :
    exec i (respond okCode data s) = .next (respond okCode (readData i s) (respond okCode data s)) := by
  have hcheck : check i.op i.p i.payload.length (respond okCode data s) = none := (check_congr rfl rfl _ _ _).trans h
  rw [exec_of_check_none hcheck, effectOf_read hop, readData_respond]

/-- Settles O53: the two outcomes of the first command, each of which the second one repeats. -/
theorem readsAreRepeatable : Obligations.ReadsAreRepeatable := by
  intro i s t u hop hfirst hsecond
  obtain ⟨c, hc, rfl⟩ | ⟨hnone, rfl⟩ := exec_cases hfirst
  · rw [exec_raiseError hc] at hsecond
    cases hsecond
    exact ⟨⟨c.code, []⟩, rfl, by simp, fun hok => absurd hok (errorCode_bounds c).1⟩
  · rw [effectOf_read hop] at hsecond ⊢
    rw [exec_respond_read hop hnone] at hsecond
    cases hsecond
    exact ⟨⟨okCode, readData i s⟩, rfl, by simp, fun _ => rfl⟩

end Sys2Proof.Machine
end

section
/-! Several instances side by side (R75, R313). -/

namespace Sys2Proof.Machine

/-- A step of instance k is a step of its own state, put in its place. -/
theorem stepAt_eq_next_iff {ncores : Nat} {sys a : System ncores} {k : Fin ncores} :
    sys.stepAt k = .next a ↔ ∃ t, step sys[k] = .next t ∧ sys.set k t = a := by
  unfold System.stepAt
  cases step sys[k] <;> simp

/-- Replacing the state of one instance leaves every other as it is. -/
theorem system_set_getElem_ne {ncores : Nat} (sys : System ncores) {j k : Fin ncores} (h : k ≠ j) (t : State) :
    (sys.set j t)[k] = sys[k] :=
  Vector.getElem_set_ne _ _ fun e => h (Fin.ext e.symm)

/-- Settles O55: writes at two different places of the vector commute. -/
theorem instancesAreIndependent : Obligations.InstancesAreIndependent := by
  intro ncores sys j a hj
  obtain ⟨t, hstepj, rfl⟩ := stepAt_eq_next_iff.mp hj
  refine ⟨fun k hkj => system_set_getElem_ne sys hkj t, fun k b hkj hk => ?_⟩
  obtain ⟨u, hstepk, rfl⟩ := stepAt_eq_next_iff.mp hk
  refine ⟨(sys.set j t).set k u, stepAt_eq_next_iff.mpr ⟨u, ?_, rfl⟩, stepAt_eq_next_iff.mpr ⟨t, ?_, ?_⟩⟩
  · rw [system_set_getElem_ne sys hkj, hstepk]
  · rw [system_set_getElem_ne sys hkj.symm, hstepj]
  · exact Vector.set_comm u t fun e => hkj (Fin.ext e)

end Sys2Proof.Machine
end

section
/-! The traffic of one command (R80 to R83): decoding an encoded command gives it back, and a complete pair (hdr, payload)
that decodes to a command is that command's only encoding. -/

namespace Sys2Proof.Machine

/-- Settles O1: N of the header counts the payload, and the opcode map leads back from the header to the command. -/
theorem decodeEncodeRoundTrip : Obligations.DecodeEncodeRoundTrip :=
  fun _ rest hwf => decode_encode_append hwf rest

/-- Settles O3: each field by place value. -/
theorem headerFieldsAreBitRanges : Obligations.HeaderFieldsAreBitRanges :=
  fun hdr => ⟨headerOp_toNat hdr, headerP_toNat hdr, headerN_eq_mod hdr⟩

/-- A decoded command has the header it was decoded from: its three fields are the header's (R81). -/
theorem header_of_decodeCommand {hdr : BitVec 32} {payload : List Byte} {i : Instr} (hlen : payload.length = headerN hdr)
    (h : decodeCommand hdr payload = some i) : i.header = hdr := by
  obtain ⟨hop, hp, hpayload⟩ := decodeCommand_fields h
  rw [Instr.header, hop, hp, hpayload, hlen, makeHeader_fields]

theorem wellFormed_of_payload_le {i : Instr} (h : i.payload.length ≤ 65535) : i.wellFormed = true :=
  decide_eq_true h

/-- A complete pair whose OP is in the opcode map (R83). -/
theorem decode_commandTraffic_some {hdr : BitVec 32} {payload : List Byte} {i : Instr} (hlen : payload.length = headerN hdr)
    (h : decodeCommand hdr payload = some i) (rest : List PortItem) :
    decode (commandTraffic hdr payload ++ rest) = .command i rest := by
  rw [commandTraffic, List.cons_append, decode_pair hdr payload rest hlen, h]

/-- A complete pair whose OP is reserved (R84). -/
theorem decode_commandTraffic_none {hdr : BitVec 32} {payload : List Byte} (hlen : payload.length = headerN hdr)
    (h : decodeCommand hdr payload = none) (rest : List PortItem) :
    decode (commandTraffic hdr payload ++ rest) = .reservedOpcode (headerOp hdr) rest := by
  rw [commandTraffic, List.cons_append, decode_pair hdr payload rest hlen, h]

/-- Settles O2: the decoded command's header and payload are the pair's own. -/
theorem encodeOfDecodedPair : Obligations.EncodeOfDecodedPair := by
  intro hdr payload rest rest' i hlen hdecode
  cases hc : decodeCommand hdr payload with
  | none =>
    rw [decode_commandTraffic_none hlen hc] at hdecode
    cases hdecode
  | some j =>
    rw [decode_commandTraffic_some hlen hc] at hdecode
    cases hdecode
    obtain ⟨-, -, hpayload⟩ := decodeCommand_fields hc
    refine ⟨?_, wellFormed_of_payload_le ?_, rfl⟩
    · rw [encode, commandTraffic, header_of_decodeCommand hlen hc, hpayload]
    · have hfits := headerN_lt hdr
      rw [hpayload]
      omega

/-- Settles O4: each word decoded. -/
theorem writtenWordsDecode : Obligations.WrittenWordsDecode := by
  unfold Obligations.WrittenWordsDecode
  decide

/-- Settles O5: the second part by decoding what was encoded. -/
theorem stepRunsDecodedCommand : Obligations.StepRunsDecodedCommand :=
  ⟨fun _ _ _ h => step_of_command h, fun s _ rest hwf => step_encode_append hwf rest s⟩

/-- Settles O6: an OP off the opcode map is one that the check refuses first, and any other OP has its command. -/
theorem stepChecksThenExecutes : Obligations.StepChecksThenExecutes := by
  intro hdr payload rest s hlen
  cases hc : decodeCommand hdr payload with
  | none =>
    rw [check_reserved _ _ _ ((decodeCommand_none_iff hdr payload).mp hc)]
    exact step_of_reservedOpcode (s := withPort _ s) (decode_commandTraffic_none hlen hc rest)
  | some i =>
    have hstep := step_of_command (s := withPort _ s) (decode_commandTraffic_some hlen hc rest)
    obtain ⟨hop, hp, hpayload⟩ := decodeCommand_fields hc
    cases hcheck : check (headerOp hdr) (headerP hdr) (headerN hdr) s with
    | none => exact ⟨i, hop, hp, hpayload, hstep⟩
    | some c =>
      rw [← hop, ← hp, ← hlen, ← hpayload] at hcheck
      exact hstep.trans (exec_of_check_some hcheck)

/-- A header with fewer bytes behind it than its N field asks for (R353). -/
theorem decode_short {hdr : BitVec 32} {bs : List Byte} (h : bs.length < headerN hdr) :
    decode (commandTraffic hdr bs) = .waiting := by
  simp only [commandTraffic, decode, decodeHeader, takeBytes_short bs _ h]

/-- The first k payload bytes of a command, behind its header. -/
theorem encode_take_succ (i : Instr) (k : Nat) :
    (encode i).take (k + 1) = commandTraffic i.header (i.payload.take k) := by
  rw [encode, List.take_succ_cons, commandTraffic, List.map_take]

/-- Settles O8: the first part has fewer bytes than N, and the two parts together are the command's encoding. -/
theorem truncatedCommandWaits : Obligations.TruncatedCommandWaits := by
  intro i k s hwf hk hport
  constructor
  · refine step_of_nothing (.inr ?_)
    rw [hport, encode_take_succ]
    refine decode_short ?_
    rw [headerN_header hwf, List.length_take]
    omega
  · have harrived : s.port ++ (encode i).drop (k + 1) = encode i ++ [] := by
      rw [hport, List.take_append_drop, List.append_nil]
    rw [harrived]
    exact step_encode_append hwf [] s

end Sys2Proof.Machine
end

section
/-! What a command answers with (R86): one response, and on success the data of the length the opcode map gives. -/

namespace Sys2Proof.Machine

/-- A command that succeeds adds one response, of code OK. -/
theorem effectOf_responses (i : Instr) (s : State) :
    (effectOf i s).responses = s.responses ++ [⟨okCode, readData i s⟩] := by
  cases i <;> rfl

/-- The digest has a byte for each byte of the W state words (R13). -/
theorem digestBytes_eq (alg : Alg) : digestBytes alg = 4 * stateWords alg := by
  cases alg <;> rfl

/-- The data of a successful command has the length its row of the opcode map gives (R83). -/
theorem readData_length (i : Instr) (s : State) : (readData i s).length = responseLength s.alg i := by
  cases i with
  | init | absorb | finalize | compress | loadState => rfl
  | readDigest | readHex | readState => simp [readData, responseLength, digestBytes_eq]
  | readStatus | readLen => rfl

theorem effectOf_err_frame {i : Instr} (h : i.op ≠ 0x01) (s : State) : (effectOf i s).err = s.err := by
  cases i <;> simp [effectOf, Instr.op] at h ⊢

theorem effectOf_ecode_frame {i : Instr} (h : i.op ≠ 0x01) (s : State) : (effectOf i s).ecode = s.ecode := by
  cases i <;> simp [effectOf, Instr.op] at h ⊢

/-- INIT clears ERR and ECODE (R27). -/
theorem effectOf_init_clears {i : Instr} (h : i.op = 0x01) (s : State) :
    (effectOf i s).err = false ∧ (effectOf i s).ecode = 0x00 := by
  cases i with
  | init => exact ⟨rfl, rfl⟩
  | absorb | finalize | readDigest | readHex | compress | loadState | readState | readStatus | readLen => simp [Instr.op] at h

/-- Settles O22: the check decides between the error procedure and the command's effect. -/
theorem commandSucceedsOrFailsWithOneCode : Obligations.CommandSucceedsOrFailsWithOneCode := by
  intro i s
  cases hcheck : check i.op i.p i.payload.length s with
  | some c =>
    obtain ⟨hne, hle⟩ := errorCode_bounds c
    exact .inl ⟨c.code, hne, hle, exec_of_check_some hcheck⟩
  | none =>
    exact .inr ⟨effectOf i s, readData i s, exec_of_check_none hcheck, effectOf_responses i s, readData_length i s,
      effectOf_port i s, fun hop => effectOf_init_clears hop s,
      fun hop => ⟨effectOf_err_frame hop s, effectOf_ecode_frame hop s⟩⟩

end Sys2Proof.Machine
end

section
/-! ABSORB_LONG (R90): its pieces, by cutting 65535 bytes off the front for as long as more than that are left. -/

namespace Sys2Proof.Machine

theorem absorbCount_of_le {n : Nat} (h : n ≤ 65535) : absorbCount n = 1 := by
  unfold absorbCount Config.maxPayload
  split <;> omega

theorem absorbCount_of_gt {n : Nat} (h : 65535 < n) : absorbCount n = absorbCount (n - 65535) + 1 := by
  unfold absorbCount Config.maxPayload
  split <;> split <;> omega

/-- Up to 65535 bytes are one piece. -/
theorem absorbPieces_of_le {bytes : List Byte} (h : bytes.length ≤ 65535) : absorbPieces bytes = [bytes] := by
  simp only [absorbPieces, absorbCount_of_le h, List.range_one, List.map_cons, List.map_nil, slice, Nat.mul_zero,
    List.drop_zero, List.take_of_length_le h]

/-- Of more bytes, the first 65535 are the first piece. -/
theorem absorbPieces_of_gt {bytes : List Byte} (h : 65535 < bytes.length) :
    absorbPieces bytes = bytes.take 65535 :: absorbPieces (bytes.drop 65535) := by
  simp only [absorbPieces, absorbCount_of_gt h, List.length_drop, List.range_succ_eq_map, List.map_cons, List.map_map,
    slice, Config.maxPayload, Nat.mul_zero, List.drop_zero, List.drop_drop]
  refine congrArg _ (List.map_congr_left fun j _ => ?_)
  simp only [Function.comp_apply, Nat.mul_succ, Nat.add_comm]

/-- The pieces of a byte sequence follow its cutting: a fact holds of every sequence if it holds of one that is a single piece,
and of a longer one as soon as it holds of the bytes after the first piece. -/
theorem absorbPieces_induction {motive : List Byte → Prop} (single : ∀ bytes, bytes.length ≤ 65535 → motive bytes)
    (cut : ∀ bytes, 65535 < bytes.length → motive (bytes.drop 65535) → motive bytes) (bytes : List Byte) :
    motive bytes := by
  induction h : bytes.length using Nat.strong_induction_on generalizing bytes with
  | _ n ih =>
    rcases Nat.lt_or_ge 65535 n with hlong | hshort
    · refine cut bytes (h ▸ hlong) (ih (n - 65535) (by omega) _ ?_)
      rw [List.length_drop, h]
    · exact single bytes (h ▸ hshort)

theorem absorbPieces_ne_nil (bytes : List Byte) : absorbPieces bytes ≠ [] := by
  rcases Nat.lt_or_ge 65535 bytes.length with hlong | hshort
  · simp [absorbPieces_of_gt hlong]
  · simp [absorbPieces_of_le hshort]

theorem absorbPieces_flatten (bytes : List Byte) : (absorbPieces bytes).flatten = bytes := by
  induction bytes using absorbPieces_induction with
  | single bytes h => simp [absorbPieces_of_le h]
  | cut bytes h ih => rw [absorbPieces_of_gt h, List.flatten_cons, ih, List.take_append_drop]

theorem absorbPieces_length (bytes : List Byte) : (absorbPieces bytes).length = absorbCount bytes.length := by
  simp [absorbPieces]

/-- Only the last piece can be shorter than 65535 bytes. -/
theorem absorbPieces_dropLast_full (bytes : List Byte) : ∀ x ∈ (absorbPieces bytes).dropLast, x.length = 65535 := by
  induction bytes using absorbPieces_induction with
  | single bytes h => simp [absorbPieces_of_le h]
  | cut bytes h ih =>
    rw [absorbPieces_of_gt h, List.dropLast_cons_of_ne_nil (absorbPieces_ne_nil _)]
    refine List.forall_mem_cons.mpr ⟨?_, ih⟩
    rw [List.length_take]
    omega

/-- No piece is too long for N, and none is empty where there are bytes. -/
theorem absorbPieces_bounds (bytes : List Byte) :
    ∀ x ∈ absorbPieces bytes, x.length ≤ 65535 ∧ (bytes ≠ [] → x ≠ []) := by
  induction bytes using absorbPieces_induction with
  | single bytes h => simp [absorbPieces_of_le h, h]
  | cut bytes h ih =>
    have hrest : bytes.drop 65535 ≠ [] := List.ne_nil_of_length_pos (by rw [List.length_drop]; omega)
    rw [absorbPieces_of_gt h]
    refine List.forall_mem_cons.mpr ⟨⟨?_, fun _ => List.ne_nil_of_length_pos ?_⟩, fun x hx => ?_⟩
    · rw [List.length_take]
      omega
    · rw [List.length_take]
      omega
    · obtain ⟨hle, hne⟩ := ih x hx
      exact ⟨hle, fun _ => hne hrest⟩

/-- Settles O56, by the lemmas on the pieces above. -/
theorem absorbLongSplitsMessage : Obligations.AbsorbLongSplitsMessage := by
  intro bytes
  refine ⟨absorbPieces_flatten bytes, ?_, absorbPieces_dropLast_full bytes, absorbPieces_bounds bytes⟩
  rw [absorbPieces_length]
  simp only [absorbCount, Config.maxPayload, List.length_eq_zero_iff]

end Sys2Proof.Machine
end

section
/-! A computation as it streams (R122, R266): what the registers hold after the bytes of a message so far, and that FINALIZE
then leaves the digest of that message in H. -/

namespace Sys2Proof.Machine

/-- The state of a computation under `alg` that has absorbed the bytes `msg`: its whole blocks are folded into the IV, the rest
stands in BUF, and LEN counts them all. -/
structure Absorbed (alg : Alg) (msg : List Byte) (s : State) : Prop where
  phase : s.phase = .active
  selected : s.alg = alg
  hash : ∀ (k : Nat) (hk : k < 8), k < stateWords alg → s.h[k] = (foldBlocks alg (ivHash alg) msg)[k]
  residual : bufBytes s.buf s.bufLen.toNat = msg.drop (64 * (msg.length / 64))
  len : s.len = BitVec.ofNat 64 msg.length

theorem algOfBit_algParam (alg : Alg) : algOfBit ((algParam alg).getLsbD 0) = alg := by
  cases alg <;> rfl

/-- INIT begins with no byte absorbed (R100). -/
theorem absorbed_initEffect (alg : Alg) (s : State) : Absorbed alg [] (initEffect (algParam alg) s) where
  phase := rfl
  selected := algOfBit_algParam alg
  hash k hk hw := by
    rw [initEffect_h, algOfBit_algParam, foldBlocks_nil, ivHash, writeHash_get _ _ _ _ hk, writeHash_get _ _ _ _ hk,
      if_pos hw, if_pos hw]
  residual := rfl
  len := rfl

theorem absorbed_respond {alg : Alg} {msg : List Byte} {s : State} (h : Absorbed alg msg s) (code : BitVec 8)
    (data : List Byte) : Absorbed alg msg (respond code data s) :=
  ⟨h.phase, h.selected, h.hash, h.residual, h.len⟩

/-- Blocks folded so far, and then those of the residual with the new bytes, are the blocks of all the bytes (R122). -/
theorem foldBlocks_residual_append (alg : Alg) (h : Vector Word 8) (msg x : List Byte) :
    foldBlocks alg (foldBlocks alg h msg) (msg.drop (64 * (msg.length / 64)) ++ x) = foldBlocks alg h (msg ++ x) := by
  have hwhole : 64 ∣ (msg.take (64 * (msg.length / 64))).length := by
    rw [List.length_take, Nat.min_eq_left (Nat.mul_div_le _ _)]
    exact Nat.dvd_mul_right _ _
  rw [← foldBlocks_take alg h msg, ← foldBlocks_append alg h _ _ hwhole, ← List.append_assoc, List.take_append_drop]

/-- What is left over of the residual with the new bytes is what is left over of all the bytes. -/
theorem residual_append (msg x : List Byte) :
    let c := msg.drop (64 * (msg.length / 64)) ++ x
    c.drop (64 * (c.length / 64)) = (msg ++ x).drop (64 * ((msg ++ x).length / 64)) := by
  intro c
  have hle : 64 * (msg.length / 64) ≤ msg.length := Nat.mul_div_le _ _
  have hcount : 64 * ((msg ++ x).length / 64) = 64 * (msg.length / 64) + 64 * (c.length / 64) := by
    simp only [c, List.length_append, List.length_drop]
    omega
  rw [hcount, ← List.drop_drop, List.drop_append_of_le_length hle]

/-- ABSORB appends its payload to the message (R121 to R123). -/
theorem absorbed_accumulate {alg : Alg} {msg : List Byte} {s : State} (h : Absorbed alg msg s) (x : List Byte) :
    Absorbed alg (msg ++ x) (accumulate x s) := by
  obtain ⟨hphase, rfl, hhash, hresidual, hlen⟩ := h
  obtain ⟨hfold, -, hrest⟩ := accumLoop_blocks s.alg ⟨s.buf, s.h, s.bufLen.toNat⟩ s.bufLen.isLt x
  rw [hresidual] at hfold hrest
  refine ⟨hphase, rfl, fun k hk hw => ?_, ?_, ?_⟩
  · have hblocks := foldBlocks_congr (msg.drop (64 * (msg.length / 64)) ++ x) hhash k hk hw
    rw [foldBlocks_residual_append] at hblocks
    exact (congrArg (·[k]) hfold).trans hblocks
  · rw [bufBytes_accumulate, hrest]
    exact residual_append msg x
  · rw [accumulate_len, hlen, List.length_append, BitVec.ofNat_add]

/-- After FINALIZE the serialized H is the digest of the message (R266, R268). -/
theorem serialize_finalizeEffect {alg : Alg} {msg : List Byte} {s : State} (h : Absorbed alg msg s) :
    serialize (finalizeEffect s).alg (finalizeEffect s).h = digestOf alg msg := by
  rw [finalizeEffect_alg, finalizeEffect_h, h.selected, h.residual, h.len, digestOf,
    ← foldBlocks_pad_rest alg (ivHash alg)]
  exact serialize_congr (foldBlocks_congr _ h.hash)

theorem execAll_singleton (i : Instr) (s : State) : execAll [i] s = exec i s := by
  simp only [execAll]
  cases exec i s <;> rfl

/-- A sequence of commands after one that answers a next state. -/
theorem execAll_cons {i : Instr} {s t : State} (h : exec i s = .next t) (is : List Instr) :
    execAll (i :: is) s = execAll is t := by
  simp only [execAll, h]

/-- ABSORBs one after the other append their payloads, with an empty OK response each. -/
theorem execAll_absorbs {alg : Alg} {msg : List Byte} {s : State} (h : Absorbed alg msg s) (xs : List (List Byte)) :
    ∃ t, execAll (xs.map (.absorb 0)) s = .next t ∧ Absorbed alg (msg ++ xs.flatten) t ∧
      t.responses = s.responses ++ List.replicate xs.length ⟨okCode, []⟩ := by
  induction xs generalizing msg s with
  | nil => exact ⟨s, rfl, by simpa using h, by simp⟩
  | cons x xs ih =>
    obtain ⟨t, hrun, habsorbed, hresponses⟩ := ih (absorbed_respond (absorbed_accumulate h x) okCode [])
    refine ⟨t, ?_, ?_, ?_⟩
    · rw [List.map_cons, execAll_cons (exec_absorb_ok x h.phase), hrun]
    · rwa [List.flatten_cons, ← List.append_assoc]
    · rw [hresponses, respond_responses, accumulate_responses, List.append_assoc, List.singleton_append, List.length_cons,
        List.replicate_succ]

/-- The commands that compute the digest of the pieces `xs` of a message, up to the one that reads it. -/
def digestCommands (alg : Alg) (xs : List (List Byte)) : List Instr :=
  .init (algParam alg) [] :: xs.map (.absorb 0) ++ [.finalize 0 []]

/-- INIT, ABSORBs and FINALIZE, from any state: PHASE is FINAL and the serialized H the digest of the bytes absorbed (R268). -/
theorem execAll_digestCommands (alg : Alg) (xs : List (List Byte)) (s : State) :
    ∃ t, execAll (digestCommands alg xs) s = .next t ∧ t.phase = .final ∧ t.alg = alg ∧
      serialize t.alg t.h = digestOf alg xs.flatten ∧
      t.responses = s.responses ++ List.replicate (xs.length + 2) ⟨okCode, []⟩ := by
  obtain ⟨t, hrun, habsorbed, hresponses⟩ := execAll_absorbs (absorbed_initEffect alg s) xs
  refine ⟨respond okCode [] (finalizeEffect t), ?_, rfl, habsorbed.selected, ?_, ?_⟩
  · rw [digestCommands, execAll_append ((execAll_cons (exec_init_ok alg s) _).trans hrun), execAll_singleton,
      exec_finalize_ok habsorbed.phase]
  · rw [respond_alg, respond_h, serialize_finalizeEffect habsorbed, List.nil_append]
  · rw [respond_responses, finalizeEffect_responses, hresponses, initEffect_responses, List.replicate_succ,
      List.replicate_succ']
    simp only [List.append_assoc, List.cons_append, List.nil_append]

end Sys2Proof.Machine
end

section
/-! HASH and HASH_HEX (R90): the digest commands over the pieces of ABSORB_LONG, then the command that reads the digest. -/

namespace Sys2Proof.Machine

theorem expand_hash (alg : Alg) (bytes : List Byte) :
    (Pseudo.hash alg bytes).expand = digestCommands alg (absorbPieces bytes) ++ [.readDigest 0 []] := by
  simp [Pseudo.expand, digestCommands, absorbLongCommands]

theorem expand_hashHex (alg : Alg) (bytes : List Byte) :
    (Pseudo.hashHex alg bytes).expand = digestCommands alg (absorbPieces bytes) ++ [.readHex 0 []] := by
  simp [Pseudo.expand, digestCommands, absorbLongCommands]

/-- The port can carry the digest commands of pieces that fit N. -/
theorem digestCommands_wellFormed (alg : Alg) {xs : List (List Byte)} (h : ∀ x ∈ xs, x.length ≤ 65535) :
    ∀ i ∈ digestCommands alg xs, i.wellFormed = true := by
  intro i hi
  simp only [digestCommands, List.mem_append, List.mem_cons, List.mem_map, List.not_mem_nil, or_false] at hi
  obtain (rfl | ⟨x, hx, rfl⟩) | rfl := hi
  · exact wellFormed_of_payload_le (Nat.zero_le _)
  · exact wellFormed_of_payload_le (h x hx)
  · exact wellFormed_of_payload_le (Nat.zero_le _)

theorem expand_wellFormed (alg : Alg) (bytes : List Byte) :
    ∀ i ∈ (Pseudo.hash alg bytes).expand ++ (Pseudo.hashHex alg bytes).expand, i.wellFormed = true := by
  have hcommands := digestCommands_wellFormed alg fun x hx => (absorbPieces_bounds bytes x hx).1
  intro i hi
  simp only [expand_hash, expand_hashHex, List.mem_append, List.mem_singleton] at hi
  obtain (hi | rfl) | (hi | rfl) := hi
  · exact hcommands i hi
  · exact wellFormed_of_payload_le (Nat.zero_le _)
  · exact hcommands i hi
  · exact wellFormed_of_payload_le (Nat.zero_le _)

/-- Settles O57: the pieces of ABSORB_LONG put together are the bytes, so the read command answers their digest. -/
theorem hashAnswersTheDigest : Obligations.HashAnswersTheDigest := by
  intro alg bytes s
  obtain ⟨t, hrun, hphase, -, hdigest, -⟩ := execAll_digestCommands alg (absorbPieces bytes) s
  rw [absorbPieces_flatten] at hdigest
  have hread : execAll (Pseudo.hash alg bytes).expand s = .next (respond okCode (digestOf alg bytes) t) := by
    rw [expand_hash, execAll_append hrun, execAll_singleton, exec_readDigest_ok hphase, hdigest]
  have hreadHex : execAll (Pseudo.hashHex alg bytes).expand s = .next (respond okCode (hex (digestOf alg bytes)) t) := by
    rw [expand_hashHex, execAll_append hrun, execAll_singleton, exec_readHex_ok hphase, hdigest]
  exact ⟨expand_wellFormed alg bytes, ⟨_, hread, List.getLast?_concat⟩, ⟨_, hreadHex, List.getLast?_concat⟩⟩

end Sys2Proof.Machine
end

section
/-! Lines with a hex operand (R89): the operand reads back as the bytes whose text it holds, whatever mnemonic stands before
it. -/

namespace Sys2Proof.Machine

/-- A blank and the operand `hex:<h...>` that holds the bytes `x`. -/
def hexOperandText (x : List Byte) : List Char :=
  ' ' :: 'h' :: 'e' :: 'x' :: ':' :: (hex x).map fun b => Char.ofNat b.toNat

theorem hexOperand_hexOperandText (x : List Byte) : hexOperand (hexOperandText x) = some (x, []) := by
  have hdigits : afterWord "hex:".toList (skipBlanks (hexOperandText x)) =
      some ((hex x).map fun b => Char.ofNat b.toNat) := rfl
  simp only [hexOperand, hdigits, hex_map_char, hexRun_text, bytesOfDigits_text, Option.map_some]

/-- A hex operand is no quoted text, so it is read as hex wherever any of the three forms may stand. -/
theorem bytesOperand_hexOperandText (x : List Byte) : bytesOperand (hexOperandText x) = some (x, []) := by
  have hnoQuote : textOperand (hexOperandText x) = none := rfl
  simp only [bytesOperand, hnoQuote, hexOperand_hexOperandText, Option.orElse_none, Option.orElse_some]

theorem ended_nil {α : Type} (a : α) : ended (some (a, [])) = some a := rfl

theorem assembleWord_absorb (rest : List Char) :
    assembleWord "absorb".toList rest = (ended (bytesOperand rest)).bind fun bs =>
      if bs.length ≤ Config.maxPayload then some (.command (.absorb 0 bs)) else none := rfl

theorem assembleWord_loadState (rest : List Char) :
    assembleWord "load_state".toList rest = (ended (hexOperand rest)).bind fun bs =>
      if bs.length = 16 ∨ bs.length = 32 then some (.command (.loadState 0 bs)) else none := rfl

theorem assembleLine_absorb_hex {x : List Byte} (h : x.length ≤ 65535) :
    assembleLine ('A' :: 'B' :: 'S' :: 'O' :: 'R' :: 'B' :: hexOperandText x) = some (.command (.absorb 0 x)) := by
  have hword : assembleLine ('A' :: 'B' :: 'S' :: 'O' :: 'R' :: 'B' :: hexOperandText x) =
      assembleWord "absorb".toList (hexOperandText x) := rfl
  rw [hword, assembleWord_absorb, bytesOperand_hexOperandText, ended_nil, Option.bind_some, if_pos h]

theorem assembleLine_loadState_hex {x : List Byte} (h : x.length = 16 ∨ x.length = 32) :
    assembleLine ('L' :: 'O' :: 'A' :: 'D' :: '_' :: 'S' :: 'T' :: 'A' :: 'T' :: 'E' :: hexOperandText x) =
      some (.command (.loadState 0 x)) := by
  have hword : assembleLine ('L' :: 'O' :: 'A' :: 'D' :: '_' :: 'S' :: 'T' :: 'A' :: 'T' :: 'E' :: hexOperandText x) =
      assembleWord "load_state".toList (hexOperandText x) := rfl
  rw [hword, assembleWord_loadState, hexOperand_hexOperandText, ended_nil, Option.bind_some, if_pos h]

/-- Settles O58: the hex operand reads back as the payload, whose length the line allows. -/
theorem hexLinesAssemble : Obligations.HexLinesAssemble :=
  fun _ => ⟨assembleLine_absorb_hex, assembleLine_loadState_hex⟩

end Sys2Proof.Machine
end

section
/-! The context commands (R100, R104, R108): H after INIT as a list of words, and the two registers read byte by byte. -/

namespace Sys2Proof.Machine

/-- INIT writes the IV to H[0..W-1]; the words after these stay, the reading of log entry 5 (R100). -/
theorem initEffect_h_toList (alg : Alg) (s : State) :
    (initEffect (algParam alg) s).h.toList =
      (List.range (stateWords alg)).map (ivWord alg) ++ s.h.toList.drop (stateWords alg) := by
  have hw : stateWords alg ≤ 8 := by cases alg <;> decide
  rw [initEffect_h, algOfBit_algParam, writeHash_toList _ _ _ hw]

/-- Settles O23: the words of H are the IV's, and under SHA-256 they are all eight. -/
theorem initStartsComputation : Obligations.InitStartsComputation := by
  intro alg s
  refine ⟨initEffect (algParam alg) s, exec_init_ok alg s, ?_, ?_, ?_⟩
  · rw [initEffect, algOfBit_algParam]
    rfl
  · rintro rfl
    exact initEffect_h_toList .md5 s
  · rintro rfl
    have hnone : s.h.toList.drop (stateWords .sha256) = [] := List.drop_of_length_le s.h.length_toList.le
    rw [initEffect_h_toList, hnone]
    rfl

theorem le32bytes_eq_map_byteOf (w : Word) : le32bytes w = (List.range 4).map (byteOf w) := rfl

theorem le64bytes_eq_map_byteOf (v : U64) : le64bytes v = (List.range 8).map (byteOf v) := rfl

/-- Bytes in order of significance, by place value (R11). -/
theorem map_byteOf_getElem? {w : Nat} (v : BitVec w) {n k : Nat} (hk : k < n) :
    ((List.range n).map (byteOf v))[k]? = some (BitVec.ofNat 8 (v.toNat / 256 ^ k)) := by
  rw [List.getElem?_map, List.getElem?_range hk, Option.map_some, byteOf_eq]

/-- READ_LEN with no payload succeeds in every phase (R108). -/
theorem exec_readLen_ok (s : State) : exec (.readLen 0 []) s = .next (respond okCode (le64bytes s.len) s) := by
  refine exec_of_check_none ?_
  simp [check, Instr.op, Instr.p, Instr.payload, lengthAllowed]

/-- Settles O24: the bytes of STATUS by place value. -/
theorem readStatusAnswersStatus : Obligations.ReadStatusAnswersStatus := by
  intro s
  refine ⟨le32bytes (statusWord s), exec_readStatus_ok s, rfl, fun k hk => ?_⟩
  rw [le32bytes_eq_map_byteOf, map_byteOf_getElem? _ hk]

/-- Settles O25: the bytes of LEN by place value. -/
theorem readLenAnswersLength : Obligations.ReadLenAnswersLength := by
  intro s
  refine ⟨le64bytes s.len, exec_readLen_ok s, rfl, fun k hk => ?_⟩
  rw [le64bytes_eq_map_byteOf, map_byteOf_getElem? _ hk]

end Sys2Proof.Machine
end

section
/-! ABSORB in its block form (R121 to R124): what one ABSORB leaves in each register, and that the registers after a
computation's ABSORBs are a function of the message, whatever its pieces. -/

namespace Sys2Proof.Machine

/-- H[0..n-1] as a list depends on these words only. -/
theorem take_toList_congr {h g : Vector Word 8} {n : Nat} (e : ∀ (k : Nat) (hk : k < 8), k < n → h[k] = g[k]) :
    h.toList.take n = g.toList.take n := by
  refine List.ext_getElem (by simp) fun k hk _ => ?_
  have hk' : k < n ∧ k < 8 := by simpa using hk
  simpa using e k hk'.2 hk'.1

/-- `foldBlocks` by its blocks, written with the list operations of the statement (R122). -/
theorem foldBlocks_eq_foldl (alg : Alg) (h : Vector Word 8) (p : List Byte) :
    foldBlocks alg h p =
      (List.range (p.length / 64)).foldl (fun h j => compressHash alg h ((p.drop (64 * j)).take 64)) h := rfl

/-- LEN after ABSORB, modulo 2^64 (R123). -/
theorem accumulate_len_toNat (x : List Byte) (s : State) :
    (accumulate x s).len.toNat = (s.len.toNat + x.length) % 2 ^ 64 := by
  rw [accumulate_len, BitVec.toNat_add, BitVec.toNat_ofNat, Nat.add_mod_mod]

/-- Settles O26: the loop of R121 in its block form, and BUFLEN as the remainder of the byte count. -/
theorem absorbFoldsBlocks : Obligations.AbsorbFoldsBlocks := by
  intro x s hphase c
  obtain ⟨hfold, -, hrest⟩ := accumLoop_blocks s.alg ⟨s.buf, s.h, s.bufLen.toNat⟩ s.bufLen.isLt x
  refine ⟨respond okCode [] (accumulate x s), exec_absorb_ok x hphase, rfl, ?_, ?_, ?_, accumulate_len_toNat x s⟩
  · rw [respond_h, accumulate_h, hfold, foldBlocks_eq_foldl]
  · have hcount : c.length = s.bufLen.toNat + x.length := by simp [c]
    rw [respond_bufLen, accumulate_bufLen_toNat, hcount]
    omega
  · rw [respond_buf, respond_bufLen, bufBytes_accumulate, hrest]

/-- Settles O27: a failing ABSORB writes no byte of BUF, and one that runs writes those of the loop's frame. -/
theorem absorbWritesOnlyItsBufferBytes : Obligations.AbsorbWritesOnlyItsBufferBytes := by
  intro p x s t h i hi hother
  obtain ⟨c, -, rfl⟩ | ⟨-, rfl⟩ := exec_cases h
  · rw [raiseError_buf]
  · exact accumLoop_buf_frame s.alg ⟨s.buf, s.h, s.bufLen.toNat⟩ s.bufLen.isLt x i hi hother

/-- INIT and the ABSORBs of any pieces, from any state, absorb the bytes of the pieces in order (R124). -/
theorem execAll_init_absorbs (alg : Alg) (xs : List (List Byte)) (s : State) :
    ∃ t, execAll (.init (algParam alg) [] :: xs.map (.absorb 0)) s = .next t ∧ Absorbed alg xs.flatten t := by
  obtain ⟨t, hrun, habsorbed, -⟩ := execAll_absorbs (absorbed_initEffect alg s) xs
  exact ⟨t, (execAll_cons (exec_init_ok alg s) _).trans hrun, habsorbed⟩

/-- What has been absorbed fixes H[0..W-1]. -/
theorem hash_eq_of_absorbed {alg : Alg} {msg : List Byte} {t u : State} (ht : Absorbed alg msg t) (hu : Absorbed alg msg u) :
    t.h.toList.take (stateWords alg) = u.h.toList.take (stateWords alg) :=
  take_toList_congr fun k hk hw => (ht.hash k hk hw).trans (hu.hash k hk hw).symm

/-- What has been absorbed fixes the residual. -/
theorem residual_eq_of_absorbed {alg : Alg} {msg : List Byte} {t u : State} (ht : Absorbed alg msg t)
    (hu : Absorbed alg msg u) : bufBytes t.buf t.bufLen.toNat = bufBytes u.buf u.bufLen.toNat :=
  ht.residual.trans hu.residual.symm

/-- What has been absorbed fixes BUFLEN, the residual's length (R24). -/
theorem bufLen_eq_of_absorbed {alg : Alg} {msg : List Byte} {t u : State} (ht : Absorbed alg msg t)
    (hu : Absorbed alg msg u) : t.bufLen = u.bufLen := by
  have hlength := congrArg List.length (residual_eq_of_absorbed ht hu)
  rw [bufBytes_length, bufBytes_length] at hlength
  exact BitVec.eq_of_toNat_eq hlength

/-- Settles O28: both splits absorb the same message, which fixes the registers and the digest. -/
theorem splitOfMessageDoesNotMatter : Obligations.SplitOfMessageDoesNotMatter := by
  intro alg xs ys s hsplit
  obtain ⟨t, hrunT, ht⟩ := execAll_init_absorbs alg xs s
  obtain ⟨u, hrunU, hu⟩ := execAll_init_absorbs alg ys s
  rw [← hsplit] at hu
  exact ⟨t, u, respond okCode [] (finalizeEffect t), respond okCode [] (finalizeEffect u), hrunT, hrunU,
    hash_eq_of_absorbed ht hu, residual_eq_of_absorbed ht hu, bufLen_eq_of_absorbed ht hu, ht.len.trans hu.len.symm,
    exec_finalize_ok ht.phase, exec_finalize_ok hu.phase,
    (serialize_finalizeEffect ht).trans (serialize_finalizeEffect hu).symm⟩

end Sys2Proof.Machine
end

section
/-! The padding builder (R140 to R145): its length, and its four parts by position. -/

namespace Sys2Proof.Machine

@[simp] theorem pad_length (alg : Alg) (r : List Byte) (len : U64) :
    (pad alg r len).length = r.length + 1 + padZeros r.length + 8 := by
  simp only [pad, List.length_append, List.length_singleton, List.length_replicate, bytes64_length]

/-- The padding ends at one block or, when the marker and the length field do not fit behind the residual, at two (R144). -/
theorem padZeros_completes_blocks {n : Nat} (hn : n ≤ 63) : n + 1 + padZeros n + 8 = if n ≤ 55 then 64 else 128 := by
  have hz := padZeros_spec n
  split <;> omega

/-- Settles O29: `padZeros` is the one residue below 64 that brings the length to 56 modulo 64, so any other count is larger. -/
theorem padFillAndLength : Obligations.PadFillAndLength := by
  intro alg r len hr
  obtain ⟨hresidue, hlt⟩ := padZeros_spec r.length
  refine ⟨?_, by omega, by omega, fun z hz => by omega, pad_length alg r len, ?_⟩
  · exact Int.toNat_of_nonneg (Int.emod_nonneg _ (by decide))
  · rw [pad_length, padZeros_completes_blocks hr]

section
variable (alg : Alg) (r : List Byte) (len : U64)

/-- The padding begins with the residual (R140). -/
theorem pad_getElem?_residual {i : Nat} (hi : i < r.length) : (pad alg r len)[i]? = r[i]? := by
  simp only [pad, List.append_assoc]
  exact List.getElem?_append_left hi

/-- The marker stands directly after the residual (R141). -/
theorem pad_getElem?_marker : (pad alg r len)[r.length]? = some 0x80 := by
  simp [pad]

/-- Between the marker and the length field every byte is zero (R142). -/
theorem pad_getElem?_fill {i : Nat} (hlow : r.length < i) (hhigh : i < r.length + 1 + padZeros r.length) :
    (pad alg r len)[i]? = some 0x00 := by
  have hmarked : (r ++ [(0x80 : Byte)]).length = r.length + 1 := List.length_append
  rw [pad, List.getElem?_append_left (by rw [List.length_append, List.length_replicate]; omega),
    List.getElem?_append_right (by omega), List.getElem?_replicate_of_lt (by omega)]

/-- The length field follows the fill (R143). -/
theorem pad_getElem?_lengthField (i : Nat) :
    (pad alg r len)[r.length + 1 + padZeros r.length + i]? = (bytes64 alg (bitLength len))[i]? := by
  have hfront : (r ++ [0x80] ++ List.replicate (padZeros r.length) (0x00 : Byte)).length =
      r.length + 1 + padZeros r.length := by
    simp only [List.length_append, List.length_singleton, List.length_replicate]
  rw [pad, ← hfront, List.getElem?_append_right (Nat.le_add_right _ _), Nat.add_sub_cancel_left]

end

theorem bitLength_toNat (len : U64) : (bitLength len).toNat = len.toNat * 8 % 2 ^ 64 :=
  BitVec.toNat_mul len 8

theorem be64bytes_eq_map_byteOf (v : U64) : be64bytes v = (List.range 8).map fun i => byteOf v (7 - i) := rfl

/-- The bytes of a U64, least significant first, by place value (R11). -/
theorem le64bytes_getElem? (v : U64) {i : Nat} (hi : i < 8) :
    (le64bytes v)[i]? = some (BitVec.ofNat 8 (v.toNat / 256 ^ i)) := by
  rw [le64bytes_eq_map_byteOf, map_byteOf_getElem? v hi]

/-- The bytes of a U64, most significant first, by place value (R11). -/
theorem be64bytes_getElem? (v : U64) {i : Nat} (hi : i < 8) :
    (be64bytes v)[i]? = some (BitVec.ofNat 8 (v.toNat / 256 ^ (7 - i))) := by
  rw [be64bytes_eq_map_byteOf, List.getElem?_map, List.getElem?_range hi, Option.map_some, byteOf_eq]

/-- Settles O30: the four parts of the padding, the length field found at the end of the last block. -/
theorem padLaysOutBytes : Obligations.PadLaysOutBytes := by
  intro alg r len i hr n bitlen
  have hn : n - 8 = r.length + 1 + padZeros r.length := by
    rw [show n = _ from (padZeros_completes_blocks hr).symm, Nat.add_sub_cancel]
  rw [hn, show bitlen = _ from (bitLength_toNat len).symm]
  refine ⟨pad_getElem?_residual alg r len, ?_, pad_getElem?_fill alg r len, fun hi => ?_⟩
  · rintro rfl
    exact pad_getElem?_marker alg r len
  · rw [pad_getElem?_lengthField]
    cases alg with
    | md5 => exact le64bytes_getElem? (bitLength len) hi
    | sha256 => exact be64bytes_getElem? (bitLength len) hi

end Sys2Proof.Machine
end

section
/-! The MD5 core (R163 to R168, R175): what each range of rounds does, the rounds one at a time, and the two tables that say
how far a round rotates and which message word it reads. -/

namespace Sys2Proof.Machine

/-- The four ranges of rounds, each with its mixing function and its message word (R163, R164). -/
theorem md5Mix_md5Index_cases (i : Nat) (b c d : Word) :
    (i < 16 ∧ md5Mix i b c d = md5F b c d ∧ md5Index i = i) ∨
    (16 ≤ i ∧ i < 32 ∧ md5Mix i b c d = md5G b c d ∧ md5Index i = (5 * i + 1) % 16) ∨
    (32 ≤ i ∧ i < 48 ∧ md5Mix i b c d = md5H b c d ∧ md5Index i = (3 * i + 5) % 16) ∨
    (48 ≤ i ∧ md5Mix i b c d = md5I b c d ∧ md5Index i = (7 * i) % 16) := by
  unfold md5Mix md5Index
  split_ifs with hF hG hH
  · exact .inl ⟨hF, rfl, rfl⟩
  · exact .inr (.inl ⟨not_lt.mp hF, hG, rfl, rfl⟩)
  · exact .inr (.inr (.inl ⟨not_lt.mp hG, hH, rfl, rfl⟩))
  · exact .inr (.inr (.inr ⟨not_lt.mp hH, rfl, rfl⟩))

@[simp] theorem md5Rounds_zero (m : Nat → Word) (v : Md5Vars) : md5Rounds m v 0 = v := rfl

/-- The rounds run in increasing order (R168). -/
theorem md5Rounds_succ (m : Nat → Word) (v : Md5Vars) (n : Nat) :
    md5Rounds m v (n + 1) = md5Round m (md5Rounds m v n) n := by
  simp only [md5Rounds, List.range_succ, List.foldl_append, List.foldl_cons, List.foldl_nil]

/-- Settles O31: the trace is the first i rounds, for each i. -/
theorem md5CompressRunsItsRounds : Obligations.Md5CompressRunsItsRounds := by
  intro st block
  refine ⟨md5Rounds (le32 block) st, md5Rounds_zero _ _, fun i _ => ?_, rfl⟩
  exact ⟨_, _, md5Mix_md5Index_cases i _ _ _, md5Rounds_succ _ _ i⟩

/-- Settles O32: a shift amount depends on its range and its place in the cycle only, which leaves sixteen of them. -/
theorem md5ShiftAmountsCycle : Obligations.Md5ShiftAmountsCycle := by
  intro i hi
  have hrange : i / 16 < 4 := by omega
  have hplace : i % 4 < 4 := Nat.mod_lt _ (by decide)
  unfold md5Shift
  generalize i / 16 = q at hrange ⊢
  generalize i % 4 = r at hplace ⊢
  clear hi i
  decide +revert

theorem md5Index_lt {i : Nat} : md5Index i < 16 := by
  unfold md5Index
  split_ifs <;> omega

/-- Within a range no word is read twice: the factors 1, 5, 3 and 7 of R164 are odd, so invertible modulo 16. -/
theorem md5Index_inj_of_same_range {i j : Nat} (hrange : i / 16 = j / 16) (h : md5Index i = md5Index j) : i = j := by
  have hF : i < 16 ↔ j < 16 := by omega
  have hG : i < 32 ↔ j < 32 := by omega
  have hH : i < 48 ↔ j < 48 := by omega
  simp only [md5Index, hF, hG, hH] at h
  split_ifs at h <;> omega

/-- Settles O33: sixteen different indices below 16 are all of them. -/
theorem md5RangesReadEveryWordOnce : Obligations.Md5RangesReadEveryWordOnce := by
  intro q _
  have hnodup : ((List.range 16).map fun j => md5Index (16 * q + j)).Nodup := by
    refine List.Nodup.map_on (fun j hj k hk h => ?_) List.nodup_range
    rw [List.mem_range] at hj hk
    have hsame := md5Index_inj_of_same_range (by omega) h
    omega
  have hsub : ((List.range 16).map fun j => md5Index (16 * q + j)) ⊆ List.range 16 := by
    intro g hg
    obtain ⟨j, -, rfl⟩ := List.mem_map.mp hg
    exact List.mem_range.mpr md5Index_lt
  exact (List.subperm_of_subset hnodup hsub).perm_of_length_le (by simp)

end Sys2Proof.Machine
end

section
/-! The mixing functions of both cores, bit by bit (R178, R220). -/

namespace Sys2Proof.Machine

/-- F selects c where b has a 1 and d elsewhere; beyond bit 31 all three words read 0 (R178). -/
theorem getLsbD_md5F (b c d : Word) (k : Nat) :
    (md5F b c d).getLsbD k = if b.getLsbD k then c.getLsbD k else d.getLsbD k := by
  rcases Nat.lt_or_ge k 32 with inside | outside
  · simp only [md5F, BitVec.getLsbD_or, BitVec.getLsbD_and, BitVec.getLsbD_not, inside]
    cases b.getLsbD k <;> simp
  · simp [BitVec.getLsbD_of_ge _ _ outside]

/-- G is F with d as its selector (R163). -/
theorem md5G_eq_md5F (b c d : Word) : md5G b c d = md5F d b c := rfl

/-- `ch` is F: its two terms share no bit, so XOR and OR of them agree (R205). -/
theorem shaCh_eq_md5F (e f g : Word) : shaCh e f g = md5F e f g := by
  refine BitVec.eq_of_getLsbD_eq fun k hk => ?_
  simp only [shaCh, md5F, BitVec.getLsbD_xor, BitVec.getLsbD_or, BitVec.getLsbD_and, BitVec.getLsbD_not, hk]
  cases e.getLsbD k <;> simp

/-- `maj` is 1 in the bits where at least two of the three words are (R220). -/
theorem getLsbD_shaMaj (a b c : Word) (k : Nat) :
    (shaMaj a b c).getLsbD k = decide (2 ≤ (a.getLsbD k).toNat + (b.getLsbD k).toNat + (c.getLsbD k).toNat) := by
  simp only [shaMaj, BitVec.getLsbD_xor, BitVec.getLsbD_and]
  generalize a.getLsbD k = x, b.getLsbD k = y, c.getLsbD k = z
  decide +revert

/-- Settles O37: G and `ch` are F on other arguments. -/
theorem mixingFunctionsSelectBits : Obligations.MixingFunctionsSelectBits := by
  intro x y z k
  rw [md5G_eq_md5F, shaCh_eq_md5F]
  exact ⟨getLsbD_md5F x y z k, getLsbD_md5F z x y k, getLsbD_md5F x y z k, getLsbD_shaMaj x y z k⟩

end Sys2Proof.Machine
end

section
/-! The SHA-256 core (R201 to R218): the words of the message schedule, each read at the stage of the expansion that appends
it, and the rounds one at a time. -/

namespace Sys2Proof.Machine

/-- The expansion appends w[i] at position i, the number of words so far (R204). -/
theorem shaExtend_getElem?_length (ws : List Word) :
    (shaExtend ws)[ws.length]? = some
      (ws.getD (ws.length - 16) 0 + smallSigma0 (ws.getD (ws.length - 15) 0) +
        ws.getD (ws.length - 7) 0 + smallSigma1 (ws.getD (ws.length - 2) 0)) :=
  List.getElem?_concat_length

/-- The whole schedule agrees with each of its stages on the words that stage has (R204). -/
theorem shaSchedule_getD_eq_upTo (block : List Byte) {n i : Nat} (hn : n ≤ 48) (hi : i < 16 + n) :
    (shaSchedule block).getD i 0 = (shaScheduleUpTo block n).getD i 0 := by
  rw [shaSchedule, List.getD_eq_getElem?_getD, List.getD_eq_getElem?_getD, shaScheduleUpTo_stable block hn hi]

/-- The first sixteen words are the block's (R201). -/
theorem shaSchedule_getElem?_blockWord (block : List Byte) {k : Nat} (hk : k < 16) :
    (shaSchedule block)[k]? = some (be32 block k) := by
  rw [shaSchedule, shaScheduleUpTo_stable block (Nat.zero_le 48) hk, shaScheduleUpTo, List.getElem?_map,
    List.getElem?_range hk, Option.map_some]

/-- Word 16 + n is what stage n of the expansion appends (R204). -/
theorem shaSchedule_getElem?_extended (block : List Byte) {n : Nat} (hn : n < 48) :
    (shaSchedule block)[16 + n]? = some
      ((shaSchedule block).getD (16 + n - 16) 0 + smallSigma0 ((shaSchedule block).getD (16 + n - 15) 0) +
        (shaSchedule block).getD (16 + n - 7) 0 + smallSigma1 ((shaSchedule block).getD (16 + n - 2) 0)) := by
  have happended := shaExtend_getElem?_length (shaScheduleUpTo block n)
  have hearlier : ∀ j, 1 ≤ j → (shaSchedule block).getD (16 + n - j) 0 = (shaScheduleUpTo block n).getD (16 + n - j) 0 :=
    fun j hj => shaSchedule_getD_eq_upTo block hn.le (by omega)
  rw [shaScheduleUpTo_length] at happended
  rw [hearlier 16 (by decide), hearlier 15 (by decide), hearlier 7 (by decide), hearlier 2 (by decide), ← happended]
  exact shaScheduleUpTo_stable block hn (by omega)

/-- Settles O34: the block's words come first, and word i is the one that stage i - 16 appends. -/
theorem sha256ScheduleExpands : Obligations.Sha256ScheduleExpands := by
  intro block
  refine ⟨shaScheduleUpTo_length block 48, fun k hk => shaSchedule_getElem?_blockWord block hk, fun i hlow hhigh => ?_⟩
  obtain ⟨n, rfl⟩ := Nat.exists_eq_add_of_le hlow
  exact shaSchedule_getElem?_extended block (by omega)

@[simp] theorem shaRounds_zero (w : Nat → Word) (v : ShaVars) : shaRounds w v 0 = v := rfl

/-- The rounds run in increasing order (R215). -/
theorem shaRounds_succ (w : Nat → Word) (v : ShaVars) (n : Nat) :
    shaRounds w v (n + 1) = shaRound w (shaRounds w v n) n := by
  simp only [shaRounds, List.range_succ, List.foldl_append, List.foldl_cons, List.foldl_nil]

/-- Settles O35: the trace is the first i rounds, for each i. -/
theorem sha256CompressRunsItsRounds : Obligations.Sha256CompressRunsItsRounds := by
  intro st block
  refine ⟨shaRounds (fun k => (shaSchedule block).getD k 0) st, shaRounds_zero _ _, fun i _ => ?_, rfl⟩
  exact ⟨_, _, rfl, rfl, shaRounds_succ _ _ i⟩

end Sys2Proof.Machine
end

section
/-! The constant tables of SHA-256 as roots of the first 64 primes (R200, R210). These lie below 312, so trial division by the
numbers below 18 finds them. -/

namespace Sys2Proof.Machine

/-- The first 64 primes. -/
def firstPrimes : List Nat :=
  [2, 3, 5, 7, 11, 13, 17, 19, 23, 29, 31, 37, 41, 43, 47, 53, 59, 61, 67, 71, 73, 79, 83, 89, 97, 101, 103, 107, 109, 113,
    127, 131, 137, 139, 149, 151, 157, 163, 167, 173, 179, 181, 191, 193, 197, 199, 211, 223, 227, 229, 233, 239, 241, 251,
    257, 263, 269, 271, 277, 281, 283, 293, 307, 311]

/-- Of a divisor and its cofactor, one lies below 18 when the product lies below 18². -/
theorem exists_small_divisor {n d : Nat} (hn : n < 18 * 18) (hd : 2 ≤ d) (hlt : d < n) (hmod : n % d = 0) :
    ∃ e < 18, e < n ∧ 2 ≤ e ∧ n % e = 0 := by
  rcases Nat.lt_or_ge d 18 with small | large
  · exact ⟨d, small, hlt, hd, hmod⟩
  · obtain ⟨e, rfl⟩ := Nat.dvd_of_mod_eq_zero hmod
    have hsmall : e < 18 := by nlinarith
    have hproper : 1 < e := Nat.lt_of_mul_lt_mul_left (a := d) (by omega)
    exact ⟨e, hsmall, by nlinarith, hproper, Nat.mul_mod_left d e⟩

/-- Below 18² a number that no number below 18 divides has no proper divisor at all. -/
theorem no_divisor_iff_no_small_divisor {n : Nat} (hn : n < 18 * 18) :
    (∀ d < n, 2 ≤ d → n % d ≠ 0) ↔ ∀ d < 18, d < n → 2 ≤ d → n % d ≠ 0 := by
  refine ⟨fun h d _ => h d, fun h d hlt hd hmod => ?_⟩
  obtain ⟨e, hsmall, helt, he, hemod⟩ := exists_small_divisor hn hd hlt hmod
  exact h e hsmall helt he hemod

/-- The primes below 312, by trial division. -/
theorem filter_range_eq_firstPrimes :
    (List.range 312).filter (fun n => 2 ≤ n ∧ ∀ d < n, 2 ≤ d → n % d ≠ 0) = firstPrimes := by
  have hsieve : (List.range 312).filter (fun n => 2 ≤ n ∧ ∀ d < 18, d < n → 2 ≤ d → n % d ≠ 0) = firstPrimes := by
    decide
  rw [← hsieve]
  refine List.filter_congr fun n hn => ?_
  have hbound : n < 18 * 18 := (List.mem_range.mp hn).trans (by decide)
  rw [decide_eq_decide, no_divisor_iff_no_small_divisor hbound]

/-- With its integer part q in front, K_SHA[i] is the integer cube root of p_i · 2^96 (R210). -/
theorem shaK_bounds_cubeRoot : ∀ i < 64, ∃ q < 7,
    (q * 2 ^ 32 + (shaK i).toNat) ^ 3 ≤ firstPrimes.getD i 0 * 2 ^ 96 ∧
      firstPrimes.getD i 0 * 2 ^ 96 < (q * 2 ^ 32 + (shaK i).toNat + 1) ^ 3 := by
  decide

/-- With its integer part q in front, IV_SHA[k] is the integer square root of p_k · 2^64 (R200). -/
theorem shaIv_bounds_squareRoot : ∀ k < 8, ∃ q < 5,
    (q * 2 ^ 32 + (shaIv.getD k 0).toNat) ^ 2 ≤ firstPrimes.getD k 0 * 2 ^ 64 ∧
      firstPrimes.getD k 0 * 2 ^ 64 < (q * 2 ^ 32 + (shaIv.getD k 0).toNat + 1) ^ 2 := by
  decide

/-- Settles O36: the sieve gives the first 64 primes, and each table entry is checked against its own prime. -/
theorem shaConstantsAreRootsOfPrimes : Obligations.ShaConstantsAreRootsOfPrimes := by
  unfold Obligations.ShaConstantsAreRootsOfPrimes
  rw [filter_range_eq_firstPrimes]
  exact ⟨rfl, shaK_bounds_cubeRoot, shaIv_bounds_squareRoot⟩

end Sys2Proof.Machine
end

section
/-! Core access (R240 to R252): what COMPRESS, LOAD_STATE and READ_STATE leave in H, and that the bytes of a loaded state are
its payload. -/

namespace Sys2Proof.Machine

/-- COMPRESS of one block succeeds in ACTIVE (R240). -/
theorem exec_compress_ok {block : List Byte} {s : State} (hphase : s.phase = .active) (hlen : block.length = 64) :
    exec (.compress 0 block) s = .next (respond okCode [] { s with h := compressHash s.alg s.h block }) := by
  refine exec_of_check_none ?_
  simp [check, Instr.op, Instr.p, Instr.payload, lengthAllowed, hphase, hlen]

/-- H after LOAD_STATE: the payload's words in H[0..W-1] (R246, R248). -/
def loadedHash (alg : Alg) (payload : List Byte) (h : Vector Word 8) : Vector Word 8 :=
  writeHash (stateWords alg) (word32 alg payload) h

/-- LOAD_STATE of W words succeeds in ACTIVE (R246). -/
theorem exec_loadState_ok {payload : List Byte} {s : State} (hphase : s.phase = .active)
    (hlen : payload.length = digestBytes s.alg) :
    exec (.loadState 0 payload) s = .next (respond okCode [] { s with h := loadedHash s.alg payload s.h }) := by
  refine exec_of_check_none ?_
  simp [check, Instr.op, Instr.p, Instr.payload, lengthAllowed, hphase, hlen, digestBytes_eq]

/-- READ_STATE with no payload succeeds from the first INIT on (R250). -/
theorem exec_readState_ok {s : State} (hphase : s.phase ≠ .uninit) :
    exec (.readState 0 []) s = .next (respond okCode (serialize s.alg s.h) s) := by
  refine exec_of_check_none ?_
  simp [check, Instr.op, Instr.p, Instr.payload, lengthAllowed, hphase]

theorem stateWords_le (alg : Alg) : stateWords alg ≤ 8 := by
  cases alg <;> decide

/-- The words written are H[0..n-1]. -/
theorem writeHash_take {n : Nat} (hn : n ≤ 8) (f : Nat → Word) (h : Vector Word 8) :
    (writeHash n f h).toList.take n = (List.range n).map f := by
  rw [writeHash_toList n f h hn]
  exact List.take_left' (by simp)

/-- The words from H[n] on stay. -/
theorem writeHash_drop {n : Nat} (hn : n ≤ 8) (f : Nat → Word) (h : Vector Word 8) :
    (writeHash n f h).toList.drop n = h.toList.drop n := by
  rw [writeHash_toList n f h hn]
  exact List.drop_left' (by simp)

/-- The loaded words as MD5's state (R248). -/
theorem md5State_loadedHash (x : List Byte) (h : Vector Word 8) :
    md5State (loadedHash .md5 x h) = ⟨le32 x 0, le32 x 1, le32 x 2, le32 x 3⟩ := by
  simp [md5State, loadedHash, stateWords, word32]

/-- The loaded words as SHA-256's state (R248). -/
theorem shaState_loadedHash (x : List Byte) (h : Vector Word 8) :
    shaState (loadedHash .sha256 x h) =
      ⟨be32 x 0, be32 x 1, be32 x 2, be32 x 3, be32 x 4, be32 x 5, be32 x 6, be32 x 7⟩ := by
  simp [shaState, loadedHash, stateWords, word32]

theorem take_succ_eq_append_byteAt {x : List Byte} {i : Nat} (hi : i < x.length) :
    x.take (i + 1) = x.take i ++ [byteAt x i] := by
  rw [List.take_add_one, byteAt, List.getD_eq_getElem _ _ hi, List.getElem?_eq_getElem hi, Option.toList_some]

/-- The bytes of the first n words of a byte sequence, word after word, are its first 4n bytes, whichever byte of a word is
its least significant (R11). -/
theorem flatMap_bytes32_word32 (alg : Alg) {x : List Byte} {n : Nat} (hn : 4 * n ≤ x.length) :
    ((List.range n).map (word32 alg x)).flatMap (bytes32 alg) = x.take (4 * n) := by
  induction n with
  | zero => rfl
  | succ n ih =>
    rw [List.range_succ, List.map_append, List.flatMap_append, ih (by omega), List.map_singleton, List.flatMap_singleton,
      bytes32_word32, Nat.mul_succ, take_succ_eq_append_byteAt (i := 4 * n + 3) (by omega),
      take_succ_eq_append_byteAt (i := 4 * n + 2) (by omega), take_succ_eq_append_byteAt (i := 4 * n + 1) (by omega),
      take_succ_eq_append_byteAt (i := 4 * n) (by omega)]
    simp only [List.append_assoc, List.cons_append, List.nil_append]

/-- A loaded state serializes to the payload it was loaded from (R244). -/
theorem serialize_loadedHash {alg : Alg} {x : List Byte} (hlen : x.length = digestBytes alg) (h : Vector Word 8) :
    serialize alg (loadedHash alg x h) = x := by
  have hwords : x.length = 4 * stateWords alg := hlen.trans (digestBytes_eq alg)
  rw [serialize, loadedHash, writeHash_take (stateWords_le alg), flatMap_bytes32_word32 alg hwords.ge, ← hwords, List.take_length]

/-- Settles O39: the compressed words are the core's answer, and writing them leaves H[4..7] under MD5. -/
theorem compressAppliesTheCore : Obligations.CompressAppliesTheCore := by
  intro block s hactive hlen
  refine ⟨_, exec_compress_ok hactive hlen, rfl, fun hmd5 => ?_, fun hsha => ?_⟩
  · rw [respond_h, hmd5]
    exact ⟨md5State_compressHash s.h block, writeHash_drop (by decide) _ s.h⟩
  · rw [respond_h, hsha]
    exact shaState_compressHash s.h block

/-- Settles O40: W words are written, which under SHA-256 are all of H. -/
theorem loadStateWritesHash : Obligations.LoadStateWritesHash := by
  intro payload s hactive hlen
  refine ⟨_, exec_loadState_ok hactive hlen, rfl, fun hmd5 => ?_, fun hsha => ?_⟩
  · rw [respond_h, hmd5]
    exact writeHash_take (by decide) (le32 payload) s.h
  · have hall := writeHash_take (n := 8) (by decide) (be32 payload) s.h
    rw [List.take_of_length_le Vector.length_toList.le] at hall
    rw [respond_h, hsha]
    exact hall

/-- Settles O41: the digest has 4 bytes for each of the W words. -/
theorem readStateAnswersHash : Obligations.ReadStateAnswersHash :=
  fun s hphase => ⟨exec_readState_ok hphase, (serialize_length s.alg s.h).trans (digestBytes_eq s.alg).symm⟩

/-- Settles O42: READ_STATE serializes the H that LOAD_STATE wrote. -/
theorem loadedStateReadsBack : Obligations.LoadedStateReadsBack := by
  intro x s hactive hlen
  have hx := serialize_loadedHash hlen s.h
  refine ⟨_, (execAll_cons (exec_loadState_ok hactive hlen) _).trans
    ((execAll_singleton _ _).trans (exec_readState_ok (by simp [hactive]))), ?_, hx.symm⟩
  simp [hx, okCode]

/-- RAW_COMPRESS compresses the loaded state with the block, and answers H (R252). -/
theorem execAll_rawCompress {st m : List Byte} {s : State} (hactive : s.phase = .active) (hm : m.length = 64)
    (hst : st.length = digestBytes s.alg) :
    let hash := compressHash s.alg (loadedHash s.alg st s.h) m
    execAll (Pseudo.rawCompress st m).expand s =
      .next (respond okCode (serialize s.alg hash) (respond okCode [] (respond okCode [] { s with h := hash }))) := by
  refine (execAll_cons (exec_loadState_ok hactive hst) _).trans ?_
  refine (execAll_cons (exec_compress_ok ?_ hm) _).trans ?_
  · exact hactive
  · exact (execAll_singleton _ _).trans (exec_readState_ok (by simp [hactive]))

/-- Settles O43: COMPRESS finds in H the words that LOAD_STATE put together from its payload. -/
theorem rawCompressReachesTheCore : Obligations.RawCompressReachesTheCore := by
  intro st m s hactive hm hst
  refine ⟨_, execAll_rawCompress hactive hm hst, rfl, rfl, rfl, by simp [okCode], fun hmd5 => ?_, fun hsha => ?_⟩
  · rw [← md5State_loadedHash st s.h, ← md5State_compressHash, ← hmd5]
    rfl
  · rw [← shaState_loadedHash st s.h, ← shaState_compressHash, ← hsha]
    rfl

end Sys2Proof.Machine
end

section
/-! FINAL (R243, R267): every command but INIT fails there or only reads. -/

namespace Sys2Proof.Machine

/-- The two things a command but INIT can come to in FINAL. -/
theorem exec_final_cases {i : Instr} {s t : State} (hfinal : s.phase = .final) (hop : i.op ≠ 0x01)
    (h : exec i s = .next t) : (∃ c, t = raiseError c s) ∨ (IsReadOp i.op ∧ t = respond okCode (readData i s) s) := by
  obtain ⟨c, -, rfl⟩ | ⟨hcheck, rfl⟩ := exec_cases h
  · exact .inl ⟨c, rfl⟩
  · obtain ⟨-, hallowed, -⟩ := check_none_phase hcheck
    have hread : IsReadOp i.op := (hallowed hfinal).resolve_left hop
    exact .inr ⟨hread, effectOf_read hread s⟩

/-- The four commands that go on with a computation fail in FINAL with E_FINAL, if their P is legal (R303). -/
theorem exec_final_failed {i : Instr} {s : State} (hfinal : s.phase = .final) (hp : i.p = 0)
    (hop : i.op = 0x02 ∨ i.op = 0x03 ∨ i.op = 0x06 ∨ i.op = 0x07) : exec i s = .next (raiseError .final s) := by
  refine exec_of_check_some ?_
  rcases hop with e | e | e | e <;> simp [check, e, hp, hfinal]

/-- Settles O52: an error and a read write nothing the digest depends on. -/
theorem finalFreezesComputation : Obligations.FinalFreezesComputation := by
  intro i s t hfinal hop h
  have hfails (hp : i.p = 0) (hw : i.op = 0x02 ∨ i.op = 0x03 ∨ i.op = 0x06 ∨ i.op = 0x07) : t = failedWith 0x03 s := by
    rw [exec_final_failed hfinal hp hw] at h
    cases h
    rfl
  obtain ⟨c, rfl⟩ | ⟨-, rfl⟩ := exec_final_cases hfinal hop h
  · exact ⟨rfl, rfl, rfl, rfl, hfinal, rfl, hfails⟩
  · exact ⟨rfl, rfl, rfl, rfl, hfinal, rfl, hfails⟩

end Sys2Proof.Machine
end

section
/-! The digest as bytes and as text (R260 to R262): both are made of pieces of one length, so a position in them is a piece
and a place within it. -/

namespace Sys2Proof.Machine

/-- Pieces of n elements each, one after the other: place m of piece k stands at position n·k + m. -/
theorem getElem?_flatMap_of_length_eq {α β : Type} {f : α → List β} {n : Nat} (hf : ∀ a, (f a).length = n) (l : List α)
    (k : Nat) {m : Nat} (hm : m < n) : (l.flatMap f)[n * k + m]? = l[k]?.bind fun a => (f a)[m]? := by
  induction l generalizing k with
  | nil => rfl
  | cons a l ih =>
    rw [List.flatMap_cons]
    cases k with
    | zero =>
      rw [Nat.mul_zero, Nat.zero_add, List.getElem?_append_left (hm.trans_eq (hf a).symm)]
      rfl
    | succ k =>
      have hposition : n * (k + 1) + m = (f a).length + (n * k + m) := by rw [hf, Nat.mul_succ]; omega
      rw [hposition, List.getElem?_append_right (Nat.le_add_right _ _), Nat.add_sub_cancel_left, ih]
      rfl

@[simp] theorem bytes32_length (alg : Alg) (w : Word) : (bytes32 alg w).length = 4 := by
  cases alg <;> rfl

theorem be32bytes_eq_map_byteOf (w : Word) : be32bytes w = (List.range 4).map fun m => byteOf w (3 - m) := rfl

/-- Where byte m of a word's four bytes stands in the word, counted from its least significant byte (R13). -/
def byteSignificance (alg : Alg) (m : Nat) : Nat :=
  match alg with
  | .md5 => m
  | .sha256 => 3 - m

/-- The four bytes of a word by place value (R11, R13). -/
theorem bytes32_getElem? (alg : Alg) (w : Word) {m : Nat} (hm : m < 4) :
    (bytes32 alg w)[m]? = some (BitVec.ofNat 8 (w.toNat / 256 ^ byteSignificance alg m)) := by
  cases alg with
  | md5 => rw [bytes32, le32bytes_eq_map_byteOf, map_byteOf_getElem? w hm, byteSignificance]
  | sha256 =>
    rw [bytes32, be32bytes_eq_map_byteOf, List.getElem?_map, List.getElem?_range hm, Option.map_some, byteOf_eq,
      byteSignificance]

/-- Word k of H gives the k-th four bytes of the digest (R260). -/
theorem serialize_getElem? (alg : Alg) (h : Vector Word 8) {k m : Nat} (hk : k < 8) (hw : k < stateWords alg) (hm : m < 4) :
    (serialize alg h)[4 * k + m]? = (bytes32 alg h[k])[m]? := by
  have hword : (h.toList.take (stateWords alg))[k]? = some h[k] := by
    rw [List.getElem?_take_of_lt hw, Vector.getElem?_toList, Vector.getElem?_eq_getElem hk]
  rw [serialize, getElem?_flatMap_of_length_eq (bytes32_length alg) _ k hm, hword, Option.bind_some]

/-- Settles O47: each word by its own bytes, each byte by place value. -/
theorem serializeLaysOutWords : Obligations.SerializeLaysOutWords := by
  refine fun alg h => ⟨serialize_length alg h, fun k hk m hw hm => ?_⟩
  rw [serialize_getElem? alg h hk hw hm, bytes32_getElem? alg _ hm]
  cases alg <;> rfl

/-- The lowercase hex digits by value (R262). -/
def hexAlphabet : List Byte :=
  [0x30, 0x31, 0x32, 0x33, 0x34, 0x35, 0x36, 0x37, 0x38, 0x39, 0x61, 0x62, 0x63, 0x64, 0x65, 0x66]

theorem hexAlphabet_getElem? : ∀ v < 16, hexAlphabet[v]? = some (hexDigit v) := by decide

/-- Byte j gives the j-th two digits of the text (R261). -/
theorem hex_getElem? (d : List Byte) {j m : Nat} (hj : j < d.length) (hm : m < 2) :
    (hex d)[2 * j + m]? = [hexDigit (d[j].toNat / 16), hexDigit (d[j].toNat % 16)][m]? := by
  rw [hex, getElem?_flatMap_of_length_eq (n := 2) (fun _ => rfl) d j hm, List.getElem?_eq_getElem hj, Option.bind_some]

/-- Settles O48: both halves of a byte are values of a digit. -/
theorem hexTextHasTwoDigitsPerByte : Obligations.HexTextHasTwoDigitsPerByte := by
  refine fun d => ⟨hex_length d, fun j hj => ?_⟩
  have hbyte := d[j].isLt
  exact ⟨(hex_getElem? d hj (m := 0) (by decide)).trans (hexAlphabet_getElem? _ (by omega)).symm,
    (hex_getElem? d hj (m := 1) (by decide)).trans (hexAlphabet_getElem? _ (by omega)).symm⟩

end Sys2Proof.Machine
end

section
/-! The finalizer's commands (R265 to R274): the padding as one block or two, and the digest that is read after it. -/

namespace Sys2Proof.Machine

/-- Two blocks, one after the other. -/
theorem foldBlocks_pair (alg : Alg) (h : Vector Word 8) {p : List Byte} (hp : p.length = 128) :
    foldBlocks alg h p = compressHash alg (compressHash alg h (p.take 64)) (p.drop 64) := by
  have hfirst : (p.take 64).length = 64 := by rw [List.length_take]; omega
  have hsecond : (p.drop 64).length = 64 := by rw [List.length_drop]; omega
  conv_lhs => rw [← List.take_append_drop 64 p]
  rw [foldBlocks_append alg h _ _ (dvd_of_eq hfirst.symm), foldBlocks_single alg h hfirst, foldBlocks_single alg _ hsecond]

/-- The padding of a residual below one block is one block up to 55 bytes, and two from 56 on (R144). -/
theorem foldBlocks_pad_residual (alg : Alg) (h : Vector Word 8) {r : List Byte} (hr : r.length ≤ 63) (len : U64) :
    foldBlocks alg h (pad alg r len) =
      if r.length ≤ 55 then compressHash alg h (pad alg r len)
      else compressHash alg (compressHash alg h ((pad alg r len).take 64)) ((pad alg r len).drop 64) := by
  have hlength := (pad_length alg r len).trans (padZeros_completes_blocks hr)
  split at hlength
  next hone => rw [if_pos hone, foldBlocks_single alg h hlength]
  next htwo => rw [if_neg htwo, foldBlocks_pair alg h hlength]

/-- Settles O44: BUFLEN is the residual's length, which decides between one block and two. -/
theorem finalizeCompressesThePadding : Obligations.FinalizeCompressesThePadding := by
  intro s hactive p
  refine ⟨_, exec_finalize_ok hactive, rfl, ?_⟩
  have hresidual : (bufBytes s.buf s.bufLen.toNat).length ≤ 63 := by
    rw [bufBytes_length]
    exact Nat.le_of_lt_succ s.bufLen.isLt
  have hblocks := foldBlocks_pad_residual s.alg s.h hresidual s.len
  rw [bufBytes_length] at hblocks
  rw [respond_h, finalizeEffect_h, hblocks]

/-- Settles O49: READ_DIGEST after the digest commands. -/
theorem streamedDigestIsDigestOfMessage : Obligations.StreamedDigestIsDigestOfMessage := by
  intro alg xs s
  obtain ⟨t, hrun, hphase, halg, hdigest, hresponses⟩ := execAll_digestCommands alg xs s
  have hcommands : .init (algParam alg) [] :: (xs.map (.absorb 0) ++ [.finalize 0 [], .readDigest 0 []]) =
      digestCommands alg xs ++ [.readDigest 0 []] := by
    simp [digestCommands]
  refine ⟨respond okCode (digestOf alg xs.flatten) t, ?_, hphase, halg, ?_⟩
  · rw [hcommands, execAll_append hrun, execAll_singleton, exec_readDigest_ok hphase, hdigest]
  · rw [respond_responses, hresponses]
    rfl

/-- Settles O45: the digest has 4 bytes for each of the W words. -/
theorem readDigestAnswersDigest : Obligations.ReadDigestAnswersDigest :=
  fun s hfinal => ⟨exec_readDigest_ok hfinal, (serialize_length s.alg s.h).trans (digestBytes_eq s.alg).symm⟩

/-- Settles O46: the text has two characters for each byte of the digest. -/
theorem readHexAnswersDigestText : Obligations.ReadHexAnswersDigestText := by
  refine fun s hfinal => ⟨exec_readHex_ok hfinal, ?_⟩
  rw [hex_length, serialize_length]
  cases s.alg <;> rfl

end Sys2Proof.Machine
end

section
/-! The check, code by code (R301 to R307): the first test that applies decides, and P and the reserved opcodes come first. -/

namespace Sys2Proof.Machine

/-- The three causes of E_BADCMD (R301). -/
def IllegalHeader (op p : BitVec 8) : Prop :=
  op = 0x00 ∨ 0x0B ≤ op ∨ (op ≠ 0x01 ∧ p ≠ 0) ∨ (op = 0x01 ∧ 0x01 < p)

theorem check_of_illegalHeader {op p : BitVec 8} (h : IllegalHeader op p) (n : Nat) (s : State) :
    check op p n s = some .badCmd := by
  unfold check
  obtain hzero | hreserved | hp | hinit := h
  · rw [if_pos (.inl hzero)]
  · rw [if_pos (.inr hreserved)]
  · rw [if_pos hp, ite_self]
  · rw [if_pos hinit, ite_self, ite_self]

/-- With a legal header the check is the rest of its tests: PHASE, then N (R302 to R307). -/
theorem check_of_legalHeader {op p : BitVec 8} (h : ¬ IllegalHeader op p) (n : Nat) (s : State) :
    check op p n s =
      if s.phase = .uninit ∧ op ∈ [0x02, 0x03, 0x04, 0x05, 0x06, 0x07, 0x08] then some .noInit
      else if s.phase = .final ∧ op ∈ [0x02, 0x03, 0x06, 0x07] then some .final
      else if s.phase = .active ∧ op ∈ [0x04, 0x05] then some .notFinal
      else if lengthAllowed op n s.alg = false then some .badLen
      else none := by
  simp only [IllegalHeader, not_or] at h
  obtain ⟨hzero, hreserved, hp, hinit⟩ := h
  rw [check, if_neg (not_or.mpr ⟨hzero, hreserved⟩), if_neg hp, if_neg hinit]

/-- A command has an opcode of the map, so that only its P can be illegal (R83, R301). -/
theorem not_illegalHeader {i : Instr} (h : i.p = 0 ∨ (i.op = 0x01 ∧ i.p = 1)) : ¬ IllegalHeader i.op i.p := by
  have hmapped : ¬ (i.op = 0x00 ∨ 0x0B ≤ i.op) := by cases i <;> simp [Instr.op]
  obtain hp | ⟨hop, hp⟩ := h
  · simpa [IllegalHeader, hp] using hmapped
  · simp [IllegalHeader, hop, hp]

theorem check_noInit {i : Instr} {s : State} (hp : i.p = 0) (hphase : s.phase = .uninit)
    (hop : i.op ∈ [0x02, 0x03, 0x04, 0x05, 0x06, 0x07, 0x08]) : check i.op i.p i.payload.length s = some .noInit := by
  rw [check_of_legalHeader (not_illegalHeader (.inl hp)), if_pos ⟨hphase, hop⟩]

theorem check_notFinal {i : Instr} {s : State} (hp : i.p = 0) (hphase : s.phase = .active)
    (hop : i.op ∈ [0x04, 0x05]) : check i.op i.p i.payload.length s = some .notFinal := by
  rw [check_of_legalHeader (not_illegalHeader (.inl hp)), if_neg (by simp [hphase]), if_neg (by simp [hphase]),
    if_pos ⟨hphase, hop⟩]

/-- R307: E_BADLEN, where no code of higher priority applies. -/
theorem check_badLen {op p : BitVec 8} {n : Nat} {s : State} (hlegal : ¬ IllegalHeader op p)
    (huninit : s.phase = .uninit → op ∉ [0x02, 0x03, 0x04, 0x05, 0x06, 0x07, 0x08])
    (hfinal : s.phase = .final → op ∉ [0x02, 0x03, 0x06, 0x07]) (hactive : s.phase = .active → op ∉ [0x04, 0x05])
    (hlen : lengthAllowed op n s.alg = false) : check op p n s = some .badLen := by
  rw [check_of_legalHeader hlegal, if_neg (not_and.mpr huninit), if_neg (not_and.mpr hfinal),
    if_neg (not_and.mpr hactive), if_pos hlen]

/-- E_BADLEN arises from the length alone (R307). -/
theorem lengthAllowed_of_check_badLen {op p : BitVec 8} {n : Nat} {s : State} (h : check op p n s = some .badLen) :
    lengthAllowed op n s.alg = false := by
  by_cases hlegal : IllegalHeader op p
  · rw [check_of_illegalHeader hlegal] at h
    cases h
  · rw [check_of_legalHeader hlegal] at h
    by_contra hlen
    rw [if_neg hlen] at h
    split_ifs at h <;> cases h

/-- The length every opcode but ABSORB requires (R307). -/
theorem lengthAllowed_eq_false_iff {op : BitVec 8} (h : op ≠ 0x02) (n : Nat) (alg : Alg) :
    lengthAllowed op n alg = false ↔ n ≠ if op = 0x06 then 64 else if op = 0x07 then 4 * stateWords alg else 0 := by
  rw [lengthAllowed, if_neg h]
  split_ifs <;> simp

/-- Settles O17: the check refuses the header before it looks at PHASE or N. -/
theorem badHeaderAnswersBadCmd : Obligations.BadHeaderAnswersBadCmd := by
  intro hdr payload rest s hlen hillegal
  have hstep := stepChecksThenExecutes hdr payload rest s hlen
  rw [check_of_illegalHeader hillegal] at hstep
  exact hstep

/-- Settles O18: the seven opcodes of R302 are those that are not excluded. -/
theorem uninitAnswersNoInit : Obligations.UninitAnswersNoInit := by
  intro i s hphase hp hinit hstatus hlength
  refine exec_of_check_some (check_noInit hp hphase ?_)
  cases i with
  | init => exact absurd rfl hinit
  | readStatus => exact absurd rfl hstatus
  | readLen => exact absurd rfl hlength
  | absorb | finalize | readDigest | readHex | compress | loadState | readState => simp [Instr.op]

/-- Settles O19. -/
theorem finalAnswersFinalError : Obligations.FinalAnswersFinalError :=
  fun _ _ hfinal =>
    ⟨exec_final_failed hfinal rfl (.inl rfl), exec_final_failed hfinal rfl (.inr (.inl rfl)),
      exec_final_failed hfinal rfl (.inr (.inr (.inl rfl))), exec_final_failed hfinal rfl (.inr (.inr (.inr rfl)))⟩

/-- Settles O20. -/
theorem activeDigestReadAnswersNotFinal : Obligations.ActiveDigestReadAnswersNotFinal := by
  refine fun payload s hactive => ⟨?_, ?_, exec_readState_ok (by simp [hactive])⟩
  · exact exec_of_check_some (check_notFinal rfl hactive (by simp [Instr.op]))
  · exact exec_of_check_some (check_notFinal rfl hactive (by simp [Instr.op]))

/-- The last response of ABSORB is not an E_BADLEN: its length is always allowed, and success answers OK (R125, R307). -/
theorem exec_absorb_not_badLen {p : BitVec 8} {x : List Byte} {s t : State} (h : exec (.absorb p x) s = .next t) :
    t.responses.getLast? ≠ some ⟨0x05, []⟩ := by
  obtain ⟨c, hcheck, rfl⟩ | ⟨-, rfl⟩ := exec_cases h
  · cases c with
    | badLen => cases lengthAllowed_of_check_badLen hcheck
    | badCmd | noInit | final | notFinal => simp [ErrorCode.code]
  · simp [effectOf_responses, okCode]

/-- Settles O21: with the codes of higher priority excluded, the length decides. -/
theorem wrongLengthAnswersBadLen : Obligations.WrongLengthAnswersBadLen := by
  refine ⟨fun i s hop hp huninit hfinal hactive hlen => ?_, fun p x s t h => exec_absorb_not_badLen h⟩
  refine exec_of_check_some (check_badLen (not_illegalHeader hp) (fun hphase => ?_) (fun hphase => ?_) (fun hphase => ?_) ?_)
  · rcases huninit hphase with e | e | e <;> simp [e]
  · simpa using And.intro hop (hfinal hphase)
  · simpa using hactive hphase
  · exact (lengthAllowed_eq_false_iff hop _ _).mpr hlen

end Sys2Proof.Machine
end

section
/-! The port between commands: an idle machine, extra bytes at the place of a header, and the reset event (R308, R315, R340,
R353). -/

namespace Sys2Proof.Machine

/-- The step of a port that holds a reset event inside a command (I12). -/
theorem step_of_resetInsideCommand {s : State} (h : decode s.port = .resetInsideCommand) :
    step s = .refused .resetInsideCommand := by
  simp only [step, h]

/-- Four bytes at the place of a header decode as the header they make (R353). -/
theorem decode_bytes_as_header (b0 b1 b2 b3 : Byte) (items : List PortItem) :
    decode ([b0, b1, b2, b3].map .byte ++ items) = decode (.header (Config.headerOfBytes [b0, b1, b2, b3]) :: items) := by
  have htaken : takeBytes (.byte b0 :: .byte b1 :: .byte b2 :: .byte b3 :: items) 4 = .got [b0, b1, b2, b3] items :=
    takeBytes_all [b0, b1, b2, b3] items
  simp only [List.map_cons, List.map_nil, List.cons_append, List.nil_append, decode, htaken]

/-- STATUS after a reset event is that of the reset state: H, BUF and the number of events are no part of it (R29, R340). -/
theorem statusWord_applyReset (s : State) : statusWord (applyReset s) = statusWord State.reset := rfl

/-- Settles O7. -/
theorem idleMachineHoldsItsState : Obligations.IdleMachineHoldsItsState :=
  fun _ k hport => run_of_port_nil hport k

/-- Settles O10, by what stands at the front of the port. -/
theorem stepStopsOnlyForResetInsideCommand : Obligations.StepStopsOnlyForResetInsideCommand := by
  intro s
  cases hd : decode s.port with
  | command i rest =>
    obtain ⟨t, hexec, -⟩ := exec_next i (withPort rest s)
    exact .inr ⟨t, (step_of_command hd).trans hexec⟩
  | reservedOpcode op rest => exact .inr ⟨_, step_of_reservedOpcode hd⟩
  | resetEvent rest => exact .inr ⟨_, step_of_resetEvent hd⟩
  | idle => exact .inr ⟨s, step_of_nothing (.inl hd)⟩
  | waiting => exact .inr ⟨s, step_of_nothing (.inr hd)⟩
  | resetInsideCommand => exact .inl ⟨rfl, step_of_resetInsideCommand hd⟩

/-- Settles O9: both ports decode to the same complete command, or to the same reserved OP. -/
theorem extraBytesAreReadAsHeader : Obligations.ExtraBytesAreReadAsHeader := by
  intro b0 b1 b2 b3 payload rest s hlen
  have hsame := decode_bytes_as_header b0 b1 b2 b3 (payload.map .byte ++ rest)
  rw [← List.append_assoc] at hsame
  cases hc : decodeCommand (Config.headerOfBytes [b0, b1, b2, b3]) payload with
  | none =>
    have hdecode := decode_commandTraffic_none hlen hc rest
    exact (step_of_reservedOpcode (s := withPort _ s) (hsame.trans hdecode)).trans
      (step_of_reservedOpcode (s := withPort _ s) hdecode).symm
  | some i =>
    have hdecode := decode_commandTraffic_some hlen hc rest
    exact (step_of_command (s := withPort _ s) (hsame.trans hdecode)).trans
      (step_of_command (s := withPort _ s) hdecode).symm

/-- Settles O13. -/
theorem resetEventRestoresSpecValues : Obligations.ResetEventRestoresSpecValues := by
  intro s rest hport
  have hdecode : decode s.port = .resetEvent rest := by rw [hport]; rfl
  obtain ⟨-, -, -, -, -, -, hstatus⟩ := resetStateHoldsSpecValues
  exact ⟨_, step_of_resetEvent hdecode, rfl, rfl, rfl, rfl, rfl, rfl, rfl, rfl, (statusWord_applyReset _).trans hstatus⟩

end Sys2Proof.Machine
end
